-- ==== Sys2Proof/Word.lean ====
section
/-! DEFINITION. The value types of the Preamble Codec (00_scope.md rules R5, R6, R7): bytes, the 32-bit
fields, and the two selector widths the spec decides. Every value is unsigned; a length is a natural number
and has no type here (rule R6: "Every rule that uses a length is written over the natural numbers"). -/

namespace Sys2Proof

/-- A byte, `u8` (R7, R8); also the width `SOF_W` of the checksum (R5). -/
abbrev Byte := BitVec 8

/-- A `u32`: the width `SIZE_W` and `ID_W` of the fields `size` and `msg_id` (R5), and the width `SOF_IN_W` of
the input of `SOF` (R6, decision D16 of 92_eei_decisions.md). -/
abbrev Word := BitVec 32

/-- The operation select `req_op`, `OP_W` = 1 bit (R6, R25). -/
abbrev OpSelect := BitVec 1

/-- The response status `rsp_status`, `STATUS_W` = 2 bits (R6, R27). -/
abbrev Status := BitVec 2

/-- The preamble record `pre[0..9]`: exactly 10 bytes, offset 0 first (R8, R60). The ten byte lanes of the
`DEC` request have the same shape (R26). -/
abbrev Record := Vector Byte 10

end Sys2Proof
end

