-- ==== Sys2Proof/Config.lean ====
section
/-! DEFINITION. The open parameters of the block (00_scope.md rule R6; 92_eei_decisions.md, "Open parameters,
collected"). They are an ARGUMENT of well-formedness and of nothing else: "None of them changes the value any
operation computes; they only bound which operand values a requester can present" (R6). The constants that the
source fixes (R5) are in Machine/Constants.lean. `HANDSHAKE` is "OPEN, not modelled" (R6, R169). -/

namespace Sys2Proof

/-- The two open port widths, with the spec's default of 32 for each (R6; decisions D3, D5). -/
structure Params where
  /-- `BODY_LEN_W`, the width of the port `enc_body_len`. -/
  bodyLenW : Nat := 32
  /-- `BUF_LEN_W`, the width of the port `dec_buf_len`. -/
  bufLenW : Nat := 32
  deriving DecidableEq, Repr

/-- The constraints the spec sets on the open widths: "any value >= 1" for `BODY_LEN_W`, "any value >= 4" for
`BUF_LEN_W` (R6). -/
abbrev Params.Legal (c : Params) : Prop := 1 ≤ c.bodyLenW ∧ 4 ≤ c.bufLenW

/-- The spec's default widths, 32 and 32 (R6). -/
def Params.standard : Params := {}

end Sys2Proof
end

