-- ==== Sys2Proof/Syntax.lean ====
section
/-! DEFINITION. What a requester can ask for (30_encoding.md rules R65, R66, R76, R77): the two operations with
their operands, and the request ports that carry them (10_state.md rules R25, R26). `SOF` is no constructor: "it
is not selectable" (R65). -/

namespace Sys2Proof

/-- The operations, one constructor per row of spec/opcode_table.json; the operands stand in the source's
parameter order (R66). A length is a natural number, so that the meaning holds for every legal port width
(R6). -/
inductive Instr where
  /-- `ENC msg_id, body_len, is_compressed` (R76, R100). `bodyLen` stands for the source's `len(body)`; the body's
  bytes are not an operand (R25). -/
  | enc (msgId : Word) (bodyLen : Nat) (isCompressed : Bool)
  /-- `DEC buf_len, buf[0..9]` (R77, R110). Lane `k` of `lanes` is an operand only when `k < bufLen` (R26). -/
  | dec (bufLen : Nat) (lanes : Record)
  deriving DecidableEq, Repr

/-- One request as it stands at the input ports: the operation select and EVERY operand port, the ports of the
operation that is not selected too (R25, R26). A port that is not read for the `req_op` at hand may hold any
value (93_implementation_defined.md U6, U7). -/
structure RequestPorts where
  /-- `req_op`: 0 selects `ENC`, 1 selects `DEC` (R25, R65). -/
  reqOp : OpSelect
  /-- `enc_msg_id`, 32 bits (R25). -/
  encMsgId : Word
  /-- `enc_body_len`, `BODY_LEN_W` bits, an unsigned length (R25). -/
  encBodyLen : Nat
  /-- `enc_is_compressed`, 1 bit: 0 is false, 1 is true (R25). -/
  encIsCompressed : BitVec 1
  /-- `dec_buf_len`, `BUF_LEN_W` bits, an unsigned length (R26). -/
  decBufLen : Nat
  /-- `dec_buf[0..9]`, ten byte lanes (R26). -/
  decBuf : Record
  deriving DecidableEq, Repr

end Sys2Proof
end

