-- ==== Sys2Proof/WellFormed.lean ====
section
/-! DEFINITION. Which requests a requester can present, for given port widths (00_scope.md rule R6; 10_state.md
rules R25, R26). The only operands whose range the Lean types do not already fix are the two lengths. -/

namespace Sys2Proof

/-- The operands fit the ports: `body_len` in `BODY_LEN_W` bits (R25), `buf_len` in `BUF_LEN_W` bits (R26). -/
def Instr.wellFormed (c : Params) : Instr → Bool
  | .enc _ bodyLen _ => decide (bodyLen < 2 ^ c.bodyLenW)
  | .dec bufLen _ => decide (bufLen < 2 ^ c.bufLenW)

/-- Every port of the request holds a value of its width, the ports that are not selected too. -/
def RequestPorts.fits (c : Params) (p : RequestPorts) : Bool :=
  decide (p.encBodyLen < 2 ^ c.bodyLenW) && decide (p.decBufLen < 2 ^ c.bufLenW)

end Sys2Proof
end

