-- ==== Sys2Proof/Decode.lean ====
section
/-! DEFINITION. The decoder of requests and the encoder (30_encoding.md rules R65, R66, R77; 10_state.md rules
R25, R26). The only binary code the spec gives a request is the one bit `req_op`: "This spec fixes no flat bit
layout for a request beyond `req_op`" (R66), so decoding reads the PORTS, and a decoded instruction carries the
operands of the selected format. "A decoder of requests written from the table is total" (R77): both values of
`req_op` are assigned and no request is refused (R73). -/

namespace Sys2Proof

/-- A boolean port or result: 0 is false, 1 is true (R25, R27). -/
def bitToBool (b : BitVec 1) : Bool := b == 1#1

/-- The 1-bit form of a boolean (R25, R27; decision D9). -/
def boolToBit (b : Bool) : BitVec 1 := if b then 1#1 else 0#1

/-- The decoder: `req_op` = 0 selects `ENC` and 1 selects `DEC` (R65); only the operand ports of the selected
format are read (R25, R26). -/
def decode (p : RequestPorts) : Instr :=
  if p.reqOp = 0#1 then
    .enc p.encMsgId p.encBodyLen (bitToBool p.encIsCompressed)
  else
    .dec p.decBufLen p.decBuf

/-- The encoder: `req_op` is the code of the operation (R65, and column "match" of spec/opcode_table.json), and the
ports of its format hold its operands. The ports of the other format hold whatever
`other` holds there, since they "may hold any value" (93_implementation_defined.md U7). -/
def encode (other : RequestPorts) : Instr → RequestPorts
  | .enc msgId bodyLen isCompressed =>
    { other with
      reqOp := 0#1, encMsgId := msgId, encBodyLen := bodyLen, encIsCompressed := boolToBit isCompressed }
  | .dec bufLen lanes =>
    { other with reqOp := 1#1, decBufLen := bufLen, decBuf := lanes }

/-- A request with the given operation select and every operand port zero. -/
def RequestPorts.ofSelect (op : OpSelect) : RequestPorts where
  reqOp := op
  encMsgId := 0#32
  encBodyLen := 0
  encIsCompressed := 0#1
  decBufLen := 0
  decBuf := Vector.replicate 10 0#8

/-! ### The operation select inside bytes

spec/opcode_table.json numbers the one bit of a row as bit 0. What follows reads that bit from bytes. -/

/-- Why a sequence of bytes names no operation. -/
inductive Rejection where
  /-- There is no byte, so there is no bit `req_op`. With the bit present no request is rejected (R73, R77). -/
  | noOperationSelect
  deriving DecidableEq, Repr

/-- The request whose operation select is bit 0 of the first byte, its operands zero. The table's mask is 0x1:
no other bit belongs to the select (R65), so the other bits are not looked at. -/
def requestOfBytes : List Byte → Except Rejection RequestPorts
  | [] => .error .noOperationSelect
  | b :: _ => .ok (RequestPorts.ofSelect (b.extractLsb' 0 1))

/-- The instruction that a sequence of bytes names: total on any bytes, rejecting by name. -/
def decodeBytes (bs : List Byte) : Except Rejection Instr :=
  match requestOfBytes bs with
  | .ok p => .ok (decode p)
  | .error e => .error e

/-- The low `n` bytes of `w`, the least significant first. -/
def littleBytes : Nat → Nat → List Byte
  | 0, _ => []
  | n + 1, w => BitVec.ofNat 8 w :: littleBytes n (w / 256)

/-- The bytes of a table word: the low `nbits` bits of `w`, in whole bytes, bit 0 in the first byte. -/
def tableBytes (nbits w : Nat) : List Byte := littleBytes ((nbits + 7) / 8) (w % 2 ^ nbits)

/-- The request that a table word stands for, for the host's `withFetchWord`; where there is no select bit the
select is 0, as every bit above `nbits` is. -/
def requestOfTableWord (nbits w : Nat) : RequestPorts :=
  match requestOfBytes (tableBytes nbits w) with
  | .ok p => p
  | .error _ => RequestPorts.ofSelect 0#1

/-- The instruction the decoder reads from a table word, operands zero; `none` where there is no bit to read. -/
def decodeTableWord (nbits w : Nat) : Option Instr :=
  match decodeBytes (tableBytes nbits w) with
  | .ok i => some i
  | .error _ => none

end Sys2Proof
end

