-- ==== Sys2Proof/Machine/Constants.lean ====
section
/-! DEFINITION. The constants the source fixes (00_scope.md rule R5): "They are not configurable at run time; a
model carries them as named constants so that a claim can name them". They are no state (10_state.md rule R33,
last rows). -/

namespace Sys2Proof.Machine

/-- `MAGIC` = 194 (R5). 90_conflicts.md C1 settles that the source's one worked example (71) is an arithmetic slip
and that 194 stands. -/
def magic : Byte := 194#8

/-- `PREAMBLE_LEN` = 10, the length of the record in bytes (R5). -/
def preambleLen : Nat := 10

/-- `OFF_SOF` = 0 (R5, R41). -/
def offSof : Nat := 0

/-- `OFF_SIZE` = 1 (R5, R41). -/
def offSize : Nat := 1

/-- `OFF_ID` = 5 (R5, R41). -/
def offId : Nat := 5

/-- `OFF_FLAG` = 9 (R5, R41). -/
def offFlag : Nat := 9

/-- The bytes of the field `sof`: `SOF_W` = 8 bits (R5). -/
def sofBytes : Nat := 1

/-- The bytes of the field `size`: `SIZE_W` = 32 bits (R5). -/
def sizeBytes : Nat := 4

/-- The bytes of the field `msg_id`: `ID_W` = 32 bits (R5). -/
def idBytes : Nat := 4

/-- `FLAG_BYTES` = 1, the bytes of the field `is_compressed` (R5). -/
def flagBytes : Nat := 1

/-- The largest value of the 32-bit field `size`, 2^32 - 1 (R100, R101). -/
def maxSize : Nat := 4294967295

end Sys2Proof.Machine
end

