-- ==== Sys2Proof/Machine/State.lean ====
section
/-! DEFINITION. The outcomes of a transaction (00_scope.md rule R10, 30_encoding.md rule R67), the ways the model
could stop, and the state. THE BLOCK ITSELF HOLDS NO STATE: "no register, no flag, no counter, no memory, no
queue, no buffer, no pending error, no record of the previous request" (10_state.md rule R21), "In a model the
machine state of the block is the unit type". What a step needs besides the block is the connection to the
requester: the requests at its input, and the responses it has given. Those two fields are the MODEL's own
(notes/assumptions/1.md); no response depends on the second, or on more of the first than one request. -/

namespace Sys2Proof.Machine

/-- The error kinds, a closed list (R10, R131, R132). -/
inductive ErrKind where
  /-- `DEC` of a buffer of fewer than 10 bytes. -/
  | shortBuffer
  /-- `DEC` of a buffer whose first 10 bytes are no valid record. -/
  | frameError
  /-- `ENC` of a body whose length plus 1 does not fit in 32 bits. -/
  | sizeOverflow
  deriving DecidableEq, Repr

/-- The response of one transaction, the sum type R10 asks for: "A model represents an outcome as a sum type, not
as a pair of a status and a result that is always present". The three formats are those of R67. -/
inductive Response where
  /-- `RSP_ENC_OK`: `Ok(pre[0..9])`. -/
  | encOk (pre : Record)
  /-- `RSP_DEC_OK`: `Ok(size, msg_id, is_compressed)`. -/
  | decOk (size msgId : Word) (isCompressed : Bool)
  /-- `RSP_ERR`: `Err(kind)`, which "carries no result at all" (R10, R134). -/
  | err (kind : ErrKind)
  deriving DecidableEq, Repr

/-- How the MODEL would stop: a pseudocode primitive used outside its definition (00_scope.md rule R9). Neither
is an outcome of the block ("none is refused", R31, R146), and no request reaches one; both are safe. -/
inductive Fault where
  /-- Raised by `memRead`, and by the return of the record: an offset that holds no byte of this transaction, or
  a width other than 1 and 4 (R9: "defined only when `off + n <= len(buf)`"). Safe. -/
  | readUndefined
  /-- Raised by `memWrite`: a value that does not fit (R9: "requires `v < 256^n`"), a width other than 1 and 4, or
  an offset outside the 10 bytes of the record (R48). Safe. -/
  | writeUndefined
  deriving DecidableEq, Repr

/-- An instruction without a meaning in this model. -/
inductive Refusal where
  /-- Raised by an arm of `exec` that has no meaning yet; no arm of this model raises it. Safe. -/
  | notModelled (mnemonic : String)
  deriving DecidableEq, Repr

/-- The requester's side of the block, all there is to hold (R21, R24, R145; decision D17 of
92_eei_decisions.md). -/
structure State where
  /-- The requests that reach this instance, in the order "put ... by whatever connects them, outside the block"
  (R145). The first is the one at the input ports; `[]` is: no request is presented. -/
  requests : List RequestPorts
  /-- The responses given so far, oldest first: what the requester holds at the end (D17). -/
  responses : List Response
  deriving DecidableEq, Repr

/-- After reset: the table of reset values is empty (R33), no request is presented and none has been answered.
"a reset has nothing to set and nothing to clear" (R160). -/
def State.reset : State where
  requests := []
  responses := []

end Sys2Proof.Machine
end

