-- ==== Sys2Proof/Machine/Ops.lean ====
section
/-! DEFINITION. The named operations: the byte spaces of one transaction and the primitives `MemRead` and
`MemWrite` (00_scope.md rule R9; 20_memory.md rules R40 to R48), `raise` and `return` (R9, R130), presenting a
request, taking one, and answering one (10_state.md rule R24), and a reset that arrives (70_reset_and_hazards.md
rule R160).

TAKING AN EXCEPTION: there is none. "Trap entry (G4). There is none": "The whole of the mechanism is: the response
of the failing transaction carries the error code instead of a result" (R136); that one shared operation is
`raiseErr`. There is no return from it: "there is nothing to return from" (R137). -/

namespace Sys2Proof.Machine

/-! ### Byte spaces

The block reaches no memory (R40). Its two byte-addressed objects are the operand buffer of `DEC` and the result
record of `ENC`; each "belongs to one transaction and does not outlive it" (R40), so neither is in `State`. -/

/-- A byte space: its (offset, byte) cells. An offset that is not listed holds NO byte. -/
abbrev Memory := List Host.Cell

/-- The one canonical form: the offsets strictly rise. (An unlisted offset reads as no value, so no cell can be
equal to what an unlisted offset reads as.) -/
abbrev Memory.wf (m : Memory) : Prop := m.Pairwise (fun x y => x.1 < y.1)

/-- The byte at an offset, if there is one. -/
def Memory.read : Memory → Nat → Option Byte
  | [], _ => none
  | (k, b) :: m, a => if k = a then some b else Memory.read m a

/-- `m[a] <- v`, keeping the canonical form. -/
def Memory.write : Memory → Nat → Byte → Memory
  | [], a, v => [(a, v)]
  | (k, b) :: m, a, v =>
    if a < k then (a, v) :: (k, b) :: m
    else if a = k then (a, v) :: m
    else (k, b) :: Memory.write m a v

/-- The byte sequence `bs` laid out from offset `k` upward, offset `k` first (R8). -/
def Memory.ofBytes : Nat → List Byte → Memory
  | _, [] => []
  | k, b :: bs => (k, b) :: Memory.ofBytes (k + 1) bs

/-! ### `MemRead` and `MemWrite` -/

/-- The widths the primitives have: "`n` is 1 or 4" (R9, R46). -/
abbrev accessWidth (n : Nat) : Prop := n = 1 ∨ n = 4

/-- The big-endian sum of `n` bytes from offset `off` on, after `acc` (R9, R43). -/
def readBytes (m : Memory) : Nat → Nat → Nat → Except Fault Nat
  | _, 0, acc => .ok acc
  | off, n + 1, acc =>
    match m.read off with
    | some b => readBytes m (off + 1) n (acc * 256 + b.toNat)
    | none => .error .readUndefined

/-- `MemRead(off, n)` (R9): the unsigned integer held big-endian in the `n` bytes at `off`. Where it is not
defined the model stops. -/
def memRead (m : Memory) (off n : Nat) : Except Fault Nat :=
  if accessWidth n then readBytes m off n 0 else .error .readUndefined

/-- Byte `k` of `v`, `(v >> 8k) mod 256` (R9). -/
def byteOf (v k : Nat) : Byte := BitVec.ofNat 8 (v >>> (8 * k))

/-- The low `n` bytes of `v` stored from offset `off` on, the most significant first (R9, R43). -/
def writeBytes : Memory → Nat → Nat → Nat → Memory
  | m, _, 0, _ => m
  | m, off, n + 1, v => writeBytes (m.write off (byteOf v n)) (off + 1) n v

/-- `MemWrite(off, n, v)` (R9): the big-endian form of `v` in the result record. It "requires `v < 256^n`", and the
record has offsets 0 to 9 "and nothing else" (R48). Where it is not defined the model stops. -/
def memWrite (m : Memory) (off n v : Nat) : Except Fault Memory :=
  if accessWidth n ∧ v < 256 ^ n ∧ off + n ≤ preambleLen then .ok (writeBytes m off n v)
  else .error .writeUndefined

/-- The byte of the result record at an offset; the model stops where `ENC` has written none. -/
def recordByte (m : Memory) (a : Nat) : Except Fault Byte :=
  match m.read a with
  | some b => .ok b
  | none => .error .readUndefined

/-- The ten bytes of the result record, for `return pre[0..9]` (R100). -/
def recordOf (m : Memory) : Except Fault Record := do
  let b0 ← recordByte m 0
  let b1 ← recordByte m 1
  let b2 ← recordByte m 2
  let b3 ← recordByte m 3
  let b4 ← recordByte m 4
  let b5 ← recordByte m 5
  let b6 ← recordByte m 6
  let b7 ← recordByte m 7
  let b8 ← recordByte m 8
  let b9 ← recordByte m 9
  return #v[b0, b1, b2, b3, b4, b5, b6, b7, b8, b9]

/-! ### The end of an operation -/

/-- `raise E`: the operation ends with `Err(E)` and with no result; the error is the response of the transaction
that caused it, and it records nothing besides its kind (R9, R130, R135, R136). -/
def raiseErr (k : ErrKind) : Except Fault Response := .ok (.err k)

/-- The requester gets one response, whole; nothing else changes (R24, R127). -/
def State.respond (s : State) (r : Response) : State := { s with responses := s.responses ++ [r] }

/-- The transaction's end: its response is given; a primitive used outside its definition stops the model. -/
def conclude (s : State) : Except Fault Response → Host.Outcome State Fault Refusal
  | .ok r => .next (s.respond r)
  | .error f => .fault f

/-! ### The requester's side -/

/-- The requester issues a request; it waits behind those that reach the instance before it (R24, R145). -/
def State.present (s : State) (p : RequestPorts) : State := { s with requests := s.requests ++ [p] }

/-- The request at the input ports, and the state once the block has taken it; `none` when no request is
presented. "one instance performs one transaction at a time" (R145). -/
def fetch (s : State) : Option (RequestPorts × State) :=
  match s.requests with
  | [] => none
  | p :: rest => some (p, { s with requests := rest })

/-- `p` stands at the input ports in the place of the request that stood there. -/
def State.placeRequest (s : State) (p : RequestPorts) : State :=
  { s with requests := p :: s.requests.drop 1 }

/-- A reset arrives: "A transaction that is in progress when a reset arrives gets no response" (R160); the block
has nothing to set and nothing to clear. -/
def State.resetArrives (s : State) : State := { s with requests := s.requests.drop 1 }

end Sys2Proof.Machine
end

