-- ==== Sys2Proof/Machine/Operands.lean ====
section
/-! DEFINITION. Operand assembly: how the operands of a request become the values the operations compute with
(30_encoding.md rules R68, R69; 10_state.md rule R26; 20_memory.md rule R44). There is no immediate, no sign
extension, no shift and no scaling (R68). -/

namespace Sys2Proof.Machine

/-- `size = body_len + 1`, "an addition on naturals that is checked for fitting in 32 bits, never wrapped" (R68 a,
R101). -/
def encSize (bodyLen : Nat) : Nat := bodyLen + 1

/-- The input of `SOF` inside the block, `(size + msg_id) mod 2^32`, the carry dropped (R68 e, R92). -/
def sofInput (size msgId : Word) : Word := size + msgId

/-- `zext_8(is_compressed)`: the byte 0 or 1 (R68 c). -/
def flagByte (isCompressed : Bool) : Byte := if isCompressed then 1#8 else 0#8

/-- `flag != 0`: "a reduction-or of the 8 bits, not a truncation to bit 0" (R69 b). -/
def flagBool (flag : Byte) : Bool := flag != 0#8

/-- The operand buffer of `DEC` as the ports give it: lane `k` is an operand only when `k < dec_buf_len` (R26), so
only those lanes are bytes of the buffer; bytes at offset 10 and above are not presented. -/
def operandBuffer (bufLen : Nat) (lanes : Record) : Memory :=
  Memory.ofBytes 0 (lanes.toList.take bufLen)

/-- The ports' view of a byte sequence `buf`: `dec_buf[k] = buf[k]` for `k < min(len(buf), 10)` (R26). The other
lanes carry no operand and hold what `other` holds there (93_implementation_defined.md U6). -/
def lanesOf (buf : List Byte) (other : Record) : Record :=
  Vector.ofFn fun k => buf[k.val]?.getD other[k]

/-- The record as one vector `rec[79:0]`: `{pre[0], pre[1], ..., pre[9]}`, byte offset `k` at bits
`79 - 8k` down to `72 - 8k` (R44). -/
def recordBits (p : Record) : BitVec 80 :=
  p[0] ++ p[1] ++ p[2] ++ p[3] ++ p[4] ++ p[5] ++ p[6] ++ p[7] ++ p[8] ++ p[9]

end Sys2Proof.Machine
end

