-- ==== Sys2Proof/Machine/Sof.lean ====
section
/-! DEFINITION. `SOF`, the start-of-frame checksum function (40_sof.md rule R90), the one internal function, used by
`ENC` and by `DEC`; no request selects it (R65). -/

namespace Sys2Proof.Machine

/-- `SOF(v) = MAGIC XOR (trunc_8(v) XOR 0xFF)`, all three values 8 bits wide (R90). The low byte is taken first
(90_conflicts.md C6). -/
def sof (v : Word) : Byte := magic ^^^ (v.truncate 8 ^^^ 0xFF#8)

end Sys2Proof.Machine
end

