-- ==== Sys2Proof/Machine/Dec.lean ====
section
/-! DEFINITION. `DEC`, the preamble decoder and its two checks (42_decode.md rules R110 to R121). -/

namespace Sys2Proof.Machine

/-- `DEC(buf)` (R110), over the length of the buffer and the bytes of it that can be read. The length check comes
first and reads no byte (R111); then the four fields are parsed (R113), the checksum is compared (R114), and an
invalid record gives none of what was parsed (R115). The flag is `flag != 0` (R116). -/
def decodePreamble (len : Nat) (buf : Memory) : Except Fault Response :=
  if len < preambleLen then raiseErr .shortBuffer
  else do
    let sofByte ← memRead buf offSof sofBytes
    let size ← memRead buf offSize sizeBytes
    let msgId ← memRead buf offId idBytes
    let flag ← memRead buf offFlag flagBytes
    let size := BitVec.ofNat 32 size
    let msgId := BitVec.ofNat 32 msgId
    if sof (sofInput size msgId) ≠ BitVec.ofNat 8 sofByte then raiseErr .frameError
    else return .decOk size msgId (flagBool (BitVec.ofNat 8 flag))

/-- The source's form of `DEC`, over a byte sequence of any length (R26: "A model may equally take a byte sequence
`buf`"; R110). -/
def decodeBuffer (buf : List Byte) : Except Fault Response :=
  decodePreamble buf.length (Memory.ofBytes 0 buf)

/-- The meaning of `DEC` at the ports (R26): one transaction, whose only effect is its response (R24, R121,
R127). -/
def execDec (bufLen : Nat) (lanes : Record) (s : State) : Host.Outcome State Fault Refusal :=
  conclude s (decodePreamble bufLen (operandBuffer bufLen lanes))

end Sys2Proof.Machine
end

