-- ==== Sys2Proof/Machine/Enc.lean ====
section
/-! DEFINITION. `ENC`, the preamble encoder (41_encode.md rules R100 to R105). -/

namespace Sys2Proof.Machine

/-- The record `ENC` builds once `size` is known to fit, in the order of the pseudocode of R100: `sof`, `size`,
`msg_id`, `is_compressed`. Before the first write the record holds no byte. -/
def buildRecord (size msgId : Word) (isCompressed : Bool) : Except Fault Record := do
  let pre ← memWrite [] offSof sofBytes (sof (sofInput size msgId)).toNat
  let pre ← memWrite pre offSize sizeBytes size.toNat
  let pre ← memWrite pre offId idBytes msgId.toNat
  let pre ← memWrite pre offFlag flagBytes (flagByte isCompressed).toNat
  recordOf pre

/-- `ENC(msg_id, body_len, is_compressed)` (R100): "the block fails with `Err(SizeOverflow)`, produces no record, and
never wraps `size`" (R101; 90_conflicts.md C4). -/
def encodePreamble (msgId : Word) (bodyLen : Nat) (isCompressed : Bool) : Except Fault Response :=
  if encSize bodyLen > maxSize then raiseErr .sizeOverflow
  else do
    let pre ← buildRecord (BitVec.ofNat 32 (encSize bodyLen)) msgId isCompressed
    return .encOk pre

/-- The meaning of `ENC`: one transaction, whose only effect is its response (R24, R103, R127). -/
def execEnc (msgId : Word) (bodyLen : Nat) (isCompressed : Bool) (s : State) :
    Host.Outcome State Fault Refusal :=
  conclude s (encodePreamble msgId bodyLen isCompressed)

end Sys2Proof.Machine
end

