-- ==== Sys2Proof/Machine/Dispatch.lean ====
section
/-! DEFINITION. One arm per row of spec/opcode_table.json, each one direct call of its meaning (30_encoding.md rule
R77). -/

namespace Sys2Proof.Machine

def exec (i : Instr) (s : State) : Host.Outcome State Fault Refusal :=
  match i with
  | .enc msgId bodyLen isCompressed => Sys2Proof.Machine.execEnc msgId bodyLen isCompressed s
  | .dec bufLen lanes => Sys2Proof.Machine.execDec bufLen lanes s

end Sys2Proof.Machine
end

