-- ==== Sys2Proof/Machine/Flags.lean ====
section
/-! DEFINITION. The response at the output ports (10_state.md rules R27, R28; 60_exceptions.md rules R131, R134).
The block has no flag and no condition code: "`rsp_status` is part of the response of one transaction and is not
stored" (R28), so what stands here are functions of one response. -/

namespace Sys2Proof.Machine

/-- The code of an error kind (R131). -/
def ErrKind.status : ErrKind → Status
  | .shortBuffer => 1#2
  | .frameError => 2#2
  | .sizeOverflow => 3#2

/-- `rsp_status` (R27, R131): 0 `Ok`, 1 `ShortBuffer`, 2 `FrameError`, 3 `SizeOverflow`. -/
def Response.status : Response → Status
  | .encOk _ => 0#2
  | .decOk _ _ _ => 0#2
  | .err k => k.status

/-- `enc_pre[0..9]`, which carries a value only in an `Ok` of `ENC` (R27). -/
def Response.encPre : Response → Option Record
  | .encOk pre => some pre
  | .decOk _ _ _ => none
  | .err _ => none

/-- `dec_size`, which carries a value only in an `Ok` of `DEC` (R27). -/
def Response.decSize : Response → Option Word
  | .encOk _ => none
  | .decOk size _ _ => some size
  | .err _ => none

/-- `dec_msg_id`, which carries a value only in an `Ok` of `DEC` (R27). -/
def Response.decMsgId : Response → Option Word
  | .encOk _ => none
  | .decOk _ msgId _ => some msgId
  | .err _ => none

/-- `dec_is_compressed`, 1 bit, which carries a value only in an `Ok` of `DEC` (R27). -/
def Response.decIsCompressed : Response → Option (BitVec 1)
  | .encOk _ => none
  | .decOk _ _ c => some (boolToBit c)
  | .err _ => none

/-- The result ports as pins, which always stand at some level. -/
structure ResultPins where
  /-- `enc_pre[0..9]` -/
  encPre : Record
  /-- `dec_size` -/
  decSize : Word
  /-- `dec_msg_id` -/
  decMsgId : Word
  /-- `dec_is_compressed` -/
  decIsCompressed : BitVec 1
  deriving DecidableEq, Repr

/-- The pin-level reading of a response (R27, R134): a port that carries no value stands at `free`, "a free input
... (any value)", and "must not be modelled as zero, as the previous result, or as the parsed-but-rejected
fields". Nothing in the model reads these pins; a claim about them holds for every `free`. -/
def Response.pins (free : ResultPins) (r : Response) : ResultPins where
  encPre := r.encPre.getD free.encPre
  decSize := r.decSize.getD free.decSize
  decMsgId := r.decMsgId.getD free.decMsgId
  decIsCompressed := r.decIsCompressed.getD free.decIsCompressed

end Sys2Proof.Machine
end

