-- ==== Sys2Proof/Machine/Step.lean ====
section
/-! DEFINITION. One step is one transaction (10_state.md rule R24; 70_reset_and_hazards.md rule R169): the request at
the input ports is taken, decoded and answered. -/

namespace Sys2Proof.Machine

/-- One step. With no request presented nothing happens: "The block never acts on its own: no operation starts
without a request" (R29). -/
def step (s : State) : Host.Outcome State Fault Refusal :=
  match fetch s with
  | none => .next s
  | some (p, t) => exec (decode p) t

/-- `s` with the table word's request at the input ports (the operand ports zero), so that the next step answers
it. -/
def State.withFetchWord (s : State) (nbits w : Nat) : State :=
  s.placeRequest (requestOfTableWord nbits w)

end Sys2Proof.Machine
end

