-- ==== Sys2Proof/Safety.lean ====
section
/-! DEFINITION. The words claims about runs use: the valid and the canonical record (30_encoding.md rules R70,
R74), written on the ten bytes and not through `MemRead`; what a good state is; and what it is to go on. -/

namespace Sys2Proof.Machine

/-- The field `size` of a record, bytes 1 to 4, the most significant first (R60, R62). -/
def recordSize (p : Record) : Word := p[1] ++ p[2] ++ p[3] ++ p[4]

/-- The field `msg_id` of a record, bytes 5 to 8, the most significant first (R60, R63). -/
def recordMsgId (p : Record) : Word := p[5] ++ p[6] ++ p[7] ++ p[8]

/-- A valid record (R70): byte 0 is `SOF` of the wrapping sum of its two fields. -/
def validRecord (p : Record) : Bool := p[0] == sof (recordSize p + recordMsgId p)

/-- The three conditions of a canonical record (R74): it is valid, "its `is_compressed` byte is 0 or 1, and its
`size` is at least 1". -/
def canonicalRecord (p : Record) : Bool :=
  validRecord p && (p[9] == 0#8 || p[9] == 1#8) && recordSize p != 0#32

/-- A response that gives a record gives a canonical one (R104). -/
def Response.good : Response → Bool
  | .encOk pre => canonicalRecord pre
  | .decOk _ _ _ => true
  | .err _ => true

/-- Every record given so far is canonical. -/
abbrev State.Good (s : State) : Prop := ∀ r ∈ s.responses, r.good = true

/-- The machine goes on: neither a fault nor a refusal (R31: "No request hangs, none is refused without a
response"). -/
def goesOn (o : Host.Outcome State Fault Refusal) : Prop := ∃ t, o = .next t

end Sys2Proof.Machine
end

