-- ==== Sys2Proof/Certificates/Slice0/Obligations.lean ====
section
/-! DEFINITION. The statements about the model, taken from the numbered rules of spec/ file by file. A statement
about what an operation does is an equation `exec i s = .next (s.respond r)`: the machine goes on, gives the one
response `r`, and changes nothing else (no request is consumed by `exec`, no earlier response changes). -/

open Sys2Proof Sys2Proof.Machine

/-! ### `SOF` (40_sof.md) -/

/-- R90: `SOF(v)` is 194 XOR (the low byte of `v`, XOR 255), written on natural numbers. -/
def Obligations.SofIsMagicXorComplementOfLowByte : Prop :=
  ∀ v : Word, (sof v).toNat = 194 ^^^ ((v.toNat % 256) ^^^ 255)

/-- The five forms of R91, the last one bit by bit. (R91 is marked by the spec as its own inference, from R90.) -/
def Obligations.SofHasFiveEqualForms : Prop :=
  ∀ v : Word,
    sof v = 194#8 ^^^ (v.truncate 8 ^^^ 255#8) ∧
    sof v = 194#8 ^^^ ~~~(v.truncate 8 : Byte) ∧
    (sof v).toNat = 194 ^^^ (255 - v.toNat % 256) ∧
    sof v = 61#8 ^^^ v.truncate 8 ∧
    (∀ i ∈ [0, 2, 3, 4, 5], (sof v).getLsbD i = !v.getLsbD i) ∧
    (∀ i ∈ [1, 6, 7], (sof v).getLsbD i = v.getLsbD i)

/-- R93: only the low byte of the input matters, so the width in which the sum is formed does not. -/
def Obligations.SofDependsOnLowByteOnly : Prop :=
  (∀ v w : Nat, v % 256 = w % 256 → sof (BitVec.ofNat 32 v) = sof (BitVec.ofNat 32 w)) ∧
  (∀ v : Nat, sof (BitVec.ofNat 32 v) = sof (BitVec.ofNat 32 (v % 256))) ∧
  (∀ v k : Nat, sof (BitVec.ofNat 32 (v + 256 * k)) = sof (BitVec.ofNat 32 v)) ∧
  (∀ a b w : Nat, 8 ≤ w → sof (BitVec.ofNat 32 ((a + b) % 2 ^ w)) = sof (BitVec.ofNat 32 (a + b)))

/-- R95 (b), (c), (d): on bytes `SOF` is a bijection and its own inverse, and the difference of two checksums is the
difference of the low bytes. (R95 is marked by the spec as its own inference.) -/
def Obligations.SofIsABijectiveInvolutionOnBytes : Prop :=
  Function.Bijective (fun b : Byte => sof (b.zeroExtend 32)) ∧
  (∀ v : Word, sof ((sof v).zeroExtend 32) = v.truncate 8) ∧
  (∀ v w : Word, sof v ^^^ sof w = (v ^^^ w).truncate 8)

/-- R94: the checksum of a record depends on its bytes 4 and 8 alone. (R94 is marked by the spec as its own
inference.) -/
def Obligations.RecordChecksumNeedsTwoBytes : Prop :=
  (∀ size msgId : Word, sof (size + msgId) = 61#8 ^^^ (size.truncate 8 + msgId.truncate 8)) ∧
  (∀ p : Record, sof (recordSize p + recordMsgId p) = 61#8 ^^^ (p[4] + p[8])) ∧
  (∀ p q : Record, p[4] = q[4] → p[8] = q[8] →
    sof (recordSize p + recordMsgId p) = sof (recordSize q + recordMsgId q))

/-! ### `ENC` (41_encode.md) -/

/-- R100 whole: `ENC` completes for every operand, with the ten bytes written out, or with `SizeOverflow`. -/
def Obligations.EncAnswersWithItsRecord : Prop :=
  ∀ (msgId : Word) (bodyLen : Nat) (isCompressed : Bool) (s : State),
    exec (.enc msgId bodyLen isCompressed) s = .next (s.respond
      (if bodyLen + 1 > 4294967295 then .err .sizeOverflow
      else
        let size : Word := BitVec.ofNat 32 (bodyLen + 1)
        .encOk #v[sof (size + msgId),
          size.extractLsb' 24 8, size.extractLsb' 16 8, size.extractLsb' 8 8, size.extractLsb' 0 8,
          msgId.extractLsb' 24 8, msgId.extractLsb' 16 8, msgId.extractLsb' 8 8, msgId.extractLsb' 0 8,
          if isCompressed then 1#8 else 0#8]))

/-- R101 over every legal width of `enc_body_len`: `ENC` fails exactly when `body_len + 1` does not fit in 32 bits,
never for a width up to 31, for exactly one operand value at width 32; and a record it gives holds the unwrapped
size. (The choice to fail is the spec's decision D4.) -/
def Obligations.EncOverflowsExactlyWhenSizeDoesNotFit : Prop :=
  ∀ (c : Params) (msgId : Word) (bodyLen : Nat) (isCompressed : Bool) (s : State),
    (Instr.enc msgId bodyLen isCompressed).wellFormed c = true →
    (exec (.enc msgId bodyLen isCompressed) s = .next (s.respond (.err .sizeOverflow)) ↔
      4294967295 ≤ bodyLen) ∧
    (bodyLen ≤ 4294967294 → ∃ pre, (recordSize pre).toNat = bodyLen + 1 ∧
      exec (.enc msgId bodyLen isCompressed) s = .next (s.respond (.encOk pre))) ∧
    (c.bodyLenW ≤ 31 → ∃ pre, exec (.enc msgId bodyLen isCompressed) s = .next (s.respond (.encOk pre))) ∧
    (c.bodyLenW = 32 →
      (exec (.enc msgId bodyLen isCompressed) s = .next (s.respond (.err .sizeOverflow)) ↔
        bodyLen = 0xFFFFFFFF)) ∧
    (32 ≤ c.bodyLenW → (Instr.enc msgId 0xFFFFFFFF isCompressed).wellFormed c = true)

/-- R104: a record that `ENC` gives is valid and canonical, reads back as the operands through `MemRead`, and comes
from one request only. (R104 is marked by the spec as its own inference.) -/
def Obligations.EncRecordIsCanonicalAndTellsItsOperands : Prop :=
  ∀ (msgId : Word) (bodyLen : Nat) (isCompressed : Bool) (pre : Record) (s : State),
    exec (.enc msgId bodyLen isCompressed) s = .next (s.respond (.encOk pre)) →
    validRecord pre = true ∧ canonicalRecord pre = true ∧
    memRead (Memory.ofBytes 0 pre.toList) 1 4 = .ok (bodyLen + 1) ∧
    memRead (Memory.ofBytes 0 pre.toList) 5 4 = .ok msgId.toNat ∧
    pre[9] = (if isCompressed then 1#8 else 0#8) ∧
    (∀ (msgId' : Word) (bodyLen' : Nat) (isCompressed' : Bool) (s' : State),
      exec (.enc msgId' bodyLen' isCompressed') s' = .next (s'.respond (.encOk pre)) →
      msgId' = msgId ∧ bodyLen' = bodyLen ∧ isCompressed' = isCompressed)

/-- R105: the flag changes byte 9 of the record and nothing else. (R105 is marked by the spec as its own
inference.) -/
def Obligations.EncFlagChangesByteNineOnly : Prop :=
  ∀ (msgId : Word) (bodyLen : Nat) (s : State), bodyLen ≤ 4294967294 →
    ∃ p q : Record,
      exec (.enc msgId bodyLen false) s = .next (s.respond (.encOk p)) ∧
      exec (.enc msgId bodyLen true) s = .next (s.respond (.encOk q)) ∧
      p[9] = 0#8 ∧ q[9] = 1#8 ∧ ∀ (k : Nat) (hk : k < 9), p[k] = q[k]

/-! ### `DEC` (42_decode.md) -/

/-- R110 and R113 whole: `DEC` completes for every operand; the length check comes first, then the checksum of the
two fields parsed by the sums of R113, then the triple. -/
def Obligations.DecAnswersByLengthThenChecksum : Prop :=
  ∀ (bufLen : Nat) (buf : Record) (s : State),
    exec (.dec bufLen buf) s = .next (s.respond
      (if bufLen < 10 then .err .shortBuffer
      else
        let size := buf[1].toNat * 2 ^ 24 + buf[2].toNat * 2 ^ 16 + buf[3].toNat * 2 ^ 8 + buf[4].toNat
        let msgId := buf[5].toNat * 2 ^ 24 + buf[6].toNat * 2 ^ 16 + buf[7].toNat * 2 ^ 8 + buf[8].toNat
        if sof (BitVec.ofNat 32 ((size + msgId) % 2 ^ 32)) ≠ buf[0] then .err .frameError
        else .decOk (BitVec.ofNat 32 size) (BitVec.ofNat 32 msgId) (buf[9] != 0#8)))

/-- R111: `ShortBuffer` exactly for the lengths 0 to 9, whatever the lanes hold, and without a byte being read: even
a buffer of which no byte can be read gives it. -/
def Obligations.DecIsShortExactlyBelowTen : Prop :=
  (∀ (bufLen : Nat) (buf : Record) (s : State),
    exec (.dec bufLen buf) s = .next (s.respond (.err .shortBuffer)) ↔ bufLen < 10) ∧
  (∀ (bufLen : Nat) (m : Memory), bufLen < 10 → decodePreamble bufLen m = .ok (.err .shortBuffer)) ∧
  (∀ (buf : Record) (s : State), exec (.dec 16 buf) s ≠ .next (s.respond (.err .shortBuffer)))

/-- R112: (a) short buffers differ in nothing; (b) from length 10 on the length has no influence; (c) a lane at or
above the length has none; and on byte sequences nothing past the tenth byte has any. -/
def Obligations.DecDependsOnTheFirstTenBytes : Prop :=
  (∀ (n n' : Nat) (buf buf' : Record) (s : State), n < 10 → n' < 10 →
    exec (.dec n buf) s = exec (.dec n' buf') s) ∧
  (∀ (n n' : Nat) (buf : Record) (s : State), 10 ≤ n → 10 ≤ n' →
    exec (.dec n buf) s = exec (.dec n' buf) s) ∧
  (∀ (n : Nat) (buf buf' : Record) (s : State), (∀ (k : Nat) (hk : k < 10), k < n → buf[k] = buf'[k]) →
    exec (.dec n buf) s = exec (.dec n buf') s) ∧
  (∀ a t u : List Byte, a.length = 10 →
    decodeBuffer (a ++ t) = decodeBuffer a ∧ decodeBuffer (a ++ t) = decodeBuffer (a ++ u))

/-- R114: from length 10 on, `FrameError` exactly when byte 0 is not the checksum recomputed from the two fields,
equivalently not 61 XOR the byte sum of bytes 4 and 8; and no other check stands between a matching checksum and
success. -/
def Obligations.DecComparesTheChecksum : Prop :=
  ∀ (bufLen : Nat) (buf : Record) (s : State), 10 ≤ bufLen →
    (exec (.dec bufLen buf) s = .next (s.respond (.err .frameError)) ↔
      buf[0] ≠ sof (recordSize buf + recordMsgId buf)) ∧
    (exec (.dec bufLen buf) s = .next (s.respond (.err .frameError)) ↔
      buf[0] ≠ 61#8 ^^^ (buf[4] + buf[8])) ∧
    (buf[0] = sof (recordSize buf + recordMsgId buf) → ∃ size msgId isCompressed,
      exec (.dec bufLen buf) s = .next (s.respond (.decOk size msgId isCompressed)))

/-- R116: a buffer of 10 or more bytes that begins with a valid record gives the two fields exactly as they stand and
`flag != 0`. -/
def Obligations.DecReturnsTheFieldsOfEveryValidRecord : Prop :=
  ∀ (bufLen : Nat) (buf : Record) (s : State), 10 ≤ bufLen → validRecord buf = true →
    exec (.dec bufLen buf) s =
      .next (s.respond (.decOk (recordSize buf) (recordMsgId buf) (buf[9] != 0#8)))

/-- R117: from length 10 on, whatever the length, a valid record decodes to its fields for EVERY `size` (0 and the
largest among them), every `msg_id` and every flag byte, and for all of these there is such a record. So besides the
length and the checksum nothing is checked. The last clause is the rule's own example. (R117 is marked by the spec as
its own inference.) -/
def Obligations.DecMakesNoOtherCheck : Prop :=
  (∀ (bufLen : Nat) (size msgId : Word) (flag : Byte) (s : State), 10 ≤ bufLen →
    (∃ buf : Record,
      validRecord buf = true ∧ recordSize buf = size ∧ recordMsgId buf = msgId ∧ buf[9] = flag) ∧
    (∀ buf : Record,
      validRecord buf = true → recordSize buf = size → recordMsgId buf = msgId → buf[9] = flag →
      exec (.dec bufLen buf) s = .next (s.respond (.decOk size msgId (flag != 0#8))))) ∧
  (∀ s : State, exec (.dec 10 #v[0x3D#8, 0#8, 0#8, 0#8, 0#8, 0#8, 0#8, 0#8, 0#8, 0#8]) s =
    .next (s.respond (.decOk 0#32 0#32 false)))

/-- R118, both directions: `DEC` of what `ENC` gave, with any bytes after it, returns the operands; and `ENC` of what
`DEC` returned rebuilds the first ten bytes but for a flag byte that becomes 0 or 1. (R118 is marked by the spec as
its own inference; its first half is the source's round trip.) -/
def Obligations.PreambleRoundTrip : Prop :=
  (∀ (msgId : Word) (bodyLen : Nat) (isCompressed : Bool) (s : State), bodyLen ≤ 4294967294 →
    ∃ pre : Record, exec (.enc msgId bodyLen isCompressed) s = .next (s.respond (.encOk pre)) ∧
      ∀ (t : List Byte) (other : Record) (s' : State),
        exec (.dec (10 + t.length) (lanesOf (pre.toList ++ t) other)) s' =
          .next (s'.respond (.decOk (BitVec.ofNat 32 (bodyLen + 1)) msgId isCompressed)) ∧
        decodeBuffer (pre.toList ++ t) =
          .ok (.decOk (BitVec.ofNat 32 (bodyLen + 1)) msgId isCompressed)) ∧
  (∀ (bufLen : Nat) (buf : Record) (size msgId : Word) (isCompressed : Bool) (s : State),
    exec (.dec bufLen buf) s = .next (s.respond (.decOk size msgId isCompressed)) → 1 ≤ size.toNat →
    ∃ pre : Record,
      exec (.enc msgId (size.toNat - 1) isCompressed) s = .next (s.respond (.encOk pre)) ∧
      (∀ (k : Nat) (hk : k < 9), pre[k] = buf[k]) ∧ (pre[9] = 0#8 ∨ pre[9] = 1#8))

/-- R119 (a) to (d): which changes of a valid record `DEC` detects. (R119 is marked by the spec as its own
inference.) -/
def Obligations.DecDetectsChangesOfTheChecksumBytes : Prop :=
  ∀ (bufLen : Nat) (p : Record) (b : Byte) (s : State), 10 ≤ bufLen → validRecord p = true →
    (b ≠ p[0] → exec (.dec bufLen (p.set 0 b)) s = .next (s.respond (.err .frameError))) ∧
    (b ≠ p[4] → exec (.dec bufLen (p.set 4 b)) s = .next (s.respond (.err .frameError))) ∧
    (b ≠ p[8] → exec (.dec bufLen (p.set 8 b)) s = .next (s.respond (.err .frameError))) ∧
    (∀ q : Record, exec (.dec bufLen q) s = .next (s.respond (.err .frameError)) ↔
      q[0] ^^^ 61#8 ≠ q[4] + q[8])

/-- R120: which changes `DEC` does not detect: (a) any change outside bytes 0, 4 and 8; (b) any joint change that
keeps the condition, adding 1 to one low byte and taking 1 from the other or exchanging them among these; (c)
exchanging the two fields. (R120 is marked by the spec as its own inference.) -/
def Obligations.DecMissesChangesThatKeepTheSum : Prop :=
  ∀ (bufLen : Nat) (p : Record) (s : State), 10 ≤ bufLen → validRecord p = true →
    (∀ q : Record, q[0] = p[0] → q[4] = p[4] → q[8] = p[8] →
      exec (.dec bufLen q) s =
        .next (s.respond (.decOk (recordSize q) (recordMsgId q) (q[9] != 0#8)))) ∧
    (∀ q : Record, q[0] ^^^ 61#8 = q[4] + q[8] →
      exec (.dec bufLen q) s =
        .next (s.respond (.decOk (recordSize q) (recordMsgId q) (q[9] != 0#8)))) ∧
    validRecord ((p.set 4 (p[4] + 1#8)).set 8 (p[8] - 1#8)) = true ∧
    validRecord ((p.set 4 p[8]).set 8 p[4]) = true ∧
    exec (.dec bufLen #v[p[0], p[5], p[6], p[7], p[8], p[1], p[2], p[3], p[4], p[9]]) s =
      .next (s.respond (.decOk (recordMsgId p) (recordSize p) (p[9] != 0#8)))

/-! ### The record (20_memory.md, 30_encoding.md) -/

/-- R43: at the offsets of the two 4-byte fields `MemWrite` puts the most significant byte first, `MemRead` returns
what was written, no other byte changes, and writing back what was read changes no byte. -/
def Obligations.BigEndianFieldIsReadBack : Prop :=
  ∀ (m : Memory) (o : Nat), o = 1 ∨ o = 5 →
    (∀ v : Word, ∃ m', memWrite m o 4 v.toNat = .ok m' ∧
      m'.read o = some (v.extractLsb' 24 8) ∧ m'.read (o + 1) = some (v.extractLsb' 16 8) ∧
      m'.read (o + 2) = some (v.extractLsb' 8 8) ∧ m'.read (o + 3) = some (v.extractLsb' 0 8) ∧
      memRead m' o 4 = .ok v.toNat ∧
      ∀ a, a < o ∨ o + 4 ≤ a → m'.read a = m.read a) ∧
    (∀ b0 b1 b2 b3 : Byte, m.read o = some b0 → m.read (o + 1) = some b1 → m.read (o + 2) = some b2 →
      m.read (o + 3) = some b3 →
      memRead m o 4 = .ok (b0.toNat * 16777216 + b1.toNat * 65536 + b2.toNat * 256 + b3.toNat) ∧
      ∃ m', memWrite m o 4 (b0.toNat * 16777216 + b1.toNat * 65536 + b2.toNat * 256 + b3.toNat) = .ok m' ∧
        ∀ a, m'.read a = m.read a)

/-- R44: byte `k` of the record is the slice `rec[79 - 8k : 72 - 8k]`, the four fields are the slices the rule names,
and the vector is the record read as one big-endian number. (The packing is the spec's decision D8.) -/
def Obligations.RecordAsOneVector : Prop :=
  ∀ p : Record,
    (∀ (k : Nat) (hk : k < 10), (recordBits p).extractLsb' (72 - 8 * k) 8 = p[k]) ∧
    (recordBits p).extractLsb' 72 8 = p[0] ∧ (recordBits p).extractLsb' 40 32 = recordSize p ∧
    (recordBits p).extractLsb' 8 32 = recordMsgId p ∧ (recordBits p).extractLsb' 0 8 = p[9] ∧
    (recordBits p).toNat = p.toList.foldl (fun acc b => acc * 256 + b.toNat) 0

/-- R70: a record is valid exactly when byte 0 is `SOF` of the wrapping sum of what `MemRead` reads at 1 and 5, which
is a condition on bytes 0, 4 and 8 alone. -/
def Obligations.ValidityIsAConditionOnThreeBytes : Prop :=
  (∀ p : Record, ∃ size msgId : Nat,
    memRead (Memory.ofBytes 0 p.toList) 1 4 = .ok size ∧
    memRead (Memory.ofBytes 0 p.toList) 5 4 = .ok msgId ∧
    (validRecord p = true ↔ p[0] = sof (BitVec.ofNat 32 ((size + msgId) % 2 ^ 32))) ∧
    (validRecord p = true ↔ p[0] = 61#8 ^^^ (p[4] + p[8]))) ∧
  (∀ p q : Record, p[0] = q[0] → p[4] = q[4] → p[8] = q[8] → validRecord p = validRecord q)

/-- R71: for every nine bytes there is exactly one checksum byte, so 2^72 of the 2^80 records are valid. (R71 is
marked by the spec as its own inference.) -/
def Obligations.OneRecordInTwoHundredFiftySixIsValid : Prop :=
  (∀ p : Record, ∃! b : Byte, validRecord (p.set 0 b) = true) ∧
  Nat.card Record = 2 ^ 80 ∧ Nat.card {p : Record // validRecord p = true} = 2 ^ 72

/-- R72: `DEC` answers an invalid record with `FrameError` and returns nothing of it, and no field value of `size`,
`msg_id` or `is_compressed` makes a record invalid. -/
def Obligations.InvalidRecordGivesFrameErrorAndNothingElse : Prop :=
  (∀ (bufLen : Nat) (buf : Record) (s : State), 10 ≤ bufLen → validRecord buf = false →
    ∃ r : Response, exec (.dec bufLen buf) s = .next (s.respond r) ∧ r = .err .frameError ∧
      r.encPre = none ∧ r.decSize = none ∧ r.decMsgId = none ∧ r.decIsCompressed = none) ∧
  (∀ (size msgId : Word) (flag : Byte), ∃ p : Record,
    validRecord p = true ∧ recordSize p = size ∧ recordMsgId p = msgId ∧ p[9] = flag)

/-- R64: `ENC` writes the flag byte 0 or 1 and no other; `DEC` maps 0 to false and the 255 other values to true; and
the flag byte is not covered by the checksum. -/
def Obligations.FlagByteIsNonzeroForTrue : Prop :=
  (∀ (msgId : Word) (bodyLen : Nat) (isCompressed : Bool) (s : State), bodyLen ≤ 4294967294 →
    ∃ pre : Record, exec (.enc msgId bodyLen isCompressed) s = .next (s.respond (.encOk pre)) ∧
      pre[9] = if isCompressed then 1#8 else 0#8) ∧
  (∀ (bufLen : Nat) (p : Record) (flag : Byte) (s : State), 10 ≤ bufLen → validRecord p = true →
    exec (.dec bufLen (p.set 9 flag)) s =
      .next (s.respond (.decOk (recordSize p) (recordMsgId p) (decide (flag ≠ 0#8)))))

/-- R74: a record is canonical exactly when some `ENC` request produces it; `DEC` accepts every valid record; a
valid record whose `size` is 0 comes from no `ENC` request. (R74 is marked by the spec as its own inference.) -/
def Obligations.CanonicalExactlyWhenEncProducesIt : Prop :=
  (∀ p : Record, canonicalRecord p = true ↔ ∃ (msgId : Word) (bodyLen : Nat) (isCompressed : Bool),
    ∀ s : State, exec (.enc msgId bodyLen isCompressed) s = .next (s.respond (.encOk p))) ∧
  (∀ (bufLen : Nat) (p : Record) (s : State), 10 ≤ bufLen → validRecord p = true →
    ∃ size msgId isCompressed,
      exec (.dec bufLen p) s = .next (s.respond (.decOk size msgId isCompressed))) ∧
  (∀ (p : Record) (msgId : Word) (bodyLen : Nat) (isCompressed : Bool) (s : State), recordSize p = 0#32 →
    exec (.enc msgId bodyLen isCompressed) s ≠ .next (s.respond (.encOk p)))

/-- R26: a lane is a byte of the operand buffer exactly when `k < dec_buf_len`, and no byte at offset 10 or above is
presented. -/
def Obligations.LaneIsAnOperandOnlyBelowTheLength : Prop :=
  ∀ (bufLen : Nat) (buf : Record) (k : Nat),
    (operandBuffer bufLen buf).read k = if h : k < 10 then (if k < bufLen then some buf[k] else none) else none

/-- R26: `DEC` at the ports is the source's `DEC` of a byte sequence, seen through its projection onto the ports,
whatever the lanes without an operand hold. -/
def Obligations.DecAtThePortsIsDecOfTheBuffer : Prop :=
  ∀ (buf : List Byte) (other : Record) (s : State), ∃ r : Response,
    decodeBuffer buf = .ok r ∧ exec (.dec buf.length (lanesOf buf other)) s = .next (s.respond r)

/-! ### Requests and responses (10_state.md, 30_encoding.md, 60_exceptions.md) -/

/-- R65: 0 selects `ENC` and 1 selects `DEC`, each with the operand ports of its format, and there is no third
case. -/
def Obligations.OperationSelectNamesTheOperation : Prop :=
  (∀ p : RequestPorts, p.reqOp = 0#1 →
    decode p = .enc p.encMsgId p.encBodyLen (decide (p.encIsCompressed = 1#1))) ∧
  (∀ p : RequestPorts, p.reqOp = 1#1 → decode p = .dec p.decBufLen p.decBuf) ∧
  (∀ p : RequestPorts, p.reqOp = 0#1 ∨ p.reqOp = 1#1)

/-- The words of spec/opcode_table.json decode to their rows. That the select is bit 0 of a byte, and that the operands
of such a word are zero, is the model's choice (notes/assumptions/6.md): the spec "fixes no flat bit layout for a
request beyond `req_op`". -/
def Obligations.TableWordsDecodeToTheirRows : Prop :=
  decodeTableWord 8 0 = some (.enc 0#32 0 false) ∧
  decodeTableWord 8 1 = some (.dec 0 (Vector.replicate 10 0#8))

/-- Requests: decoding an encoded instruction gives it back for every operand and whatever the ports of the other
format hold; encoding what was decoded over its own ports changes none; and both keep to the port widths. -/
def Obligations.RequestDecodeAndEncodeAgree : Prop :=
  (∀ (other : RequestPorts) (i : Instr), decode (encode other i) = i) ∧
  (∀ p : RequestPorts, encode p (decode p) = p) ∧
  (∀ (c : Params) (p : RequestPorts), p.fits c = true → (decode p).wellFormed c = true)

/-- A step runs the decoded instruction: with a request at the input ports, the step takes it and is `exec` of what
it decodes to; so an encoded instruction is what runs. -/
def Obligations.StepRunsTheDecodedRequest : Prop :=
  (∀ (s : State) (p : RequestPorts) (rest : List RequestPorts), s.requests = p :: rest →
    step s = exec (decode p) { s with requests := rest }) ∧
  (∀ (c : Params) (i : Instr) (other : RequestPorts) (rest : List RequestPorts) (given : List Response),
    i.wellFormed c = true →
    step { requests := encode other i :: rest, responses := given } =
      exec i { requests := rest, responses := given })

/-- R29, "no operation starts without a request": a step without one changes nothing. That the model's step is then
an idle step is its own choice (notes/assumptions/3.md). -/
def Obligations.NothingHappensWithoutARequest : Prop :=
  ∀ s : State, s.requests = [] → step s = .next s

/-- R30: the response is a function of `req_op` and of the operand ports that are read for it; the ports of the other
format, the requests that wait and the responses given before have no influence. -/
def Obligations.ResponseIsAFunctionOfTheRequest : Prop :=
  ∀ (p q : RequestPorts) (rest rest' : List RequestPorts) (given given' : List Response),
    p.reqOp = q.reqOp →
    (p.reqOp = 0#1 → p.encMsgId = q.encMsgId ∧ p.encBodyLen = q.encBodyLen ∧
      p.encIsCompressed = q.encIsCompressed) →
    (p.reqOp = 1#1 → p.decBufLen = q.decBufLen ∧ p.decBuf = q.decBuf) →
    ∃ r : Response,
      step { requests := p :: rest, responses := given } =
        .next { requests := rest, responses := given ++ [r] } ∧
      step { requests := q :: rest', responses := given' } =
        .next { requests := rest', responses := given' ++ [r] }

/-- R31: "Every request gets exactly one outcome": every operation, with any operands and in any state, gives exactly one
response and changes nothing else; so does the step that takes a request at the ports. No fault and no refusal
answers a request. (A step without a request is no part of this: it is `EveryStepGoesOn`.) -/
def Obligations.EveryOperationEnds : Prop :=
  (∀ (i : Instr) (s : State), ∃! r : Response, exec i s = .next (s.respond r)) ∧
  (∀ (s : State) (p : RequestPorts) (rest : List RequestPorts), s.requests = p :: rest →
    ∃! r : Response, step s = .next { requests := rest, responses := s.responses ++ [r] })

/-- Every step goes on, the idle one too: the machine stops in no state. That a state without a request has a step at
all, and that this step goes on, is the model's choice (notes/assumptions/3.md). -/
def Obligations.EveryStepGoesOn : Prop :=
  ∀ s : State, goesOn (step s)

/-- R27: which result ports carry a value: exactly those of the selected operation, and only with status 0. (The ports
are the spec's decision D1, D6, D7, D9.) -/
def Obligations.ResultPortsCarryValuesExactlyOnOk : Prop :=
  ∀ (p : RequestPorts) (rest : List RequestPorts) (given : List Response), ∃ r : Response,
    step { requests := p :: rest, responses := given } = .next { requests := rest, responses := given ++ [r] } ∧
    (r.encPre.isSome = true ↔ p.reqOp = 0#1 ∧ r.status = 0#2) ∧
    (r.decSize.isSome = true ↔ p.reqOp = 1#1 ∧ r.status = 0#2) ∧
    (r.decMsgId.isSome = true ↔ p.reqOp = 1#1 ∧ r.status = 0#2) ∧
    (r.decIsCompressed.isSome = true ↔ p.reqOp = 1#1 ∧ r.status = 0#2)

/-- R131: the status code of every outcome with its cause, exactly; no value is recorded with an error. (The codes
are the spec's decision D6.) -/
def Obligations.StatusCodeTellsTheCause : Prop :=
  (∀ (msgId : Word) (bodyLen : Nat) (isCompressed : Bool) (s : State), ∃ r : Response,
    exec (.enc msgId bodyLen isCompressed) s = .next (s.respond r) ∧
    r.status = (if bodyLen + 1 > 4294967295 then 3#2 else 0#2) ∧
    (r.status = 3#2 ↔ r = .err .sizeOverflow)) ∧
  (∀ (bufLen : Nat) (buf : Record) (s : State), ∃ r : Response,
    exec (.dec bufLen buf) s = .next (s.respond r) ∧
    r.status = (if bufLen < 10 then 1#2
      else if buf[0] ≠ sof (recordSize buf + recordMsgId buf) then 2#2 else 0#2) ∧
    (r.status = 1#2 ↔ r = .err .shortBuffer) ∧ (r.status = 2#2 ↔ r = .err .frameError))

/-- R134: an error carries no result: no result port has a value, and as pins they stand at whatever level they
happen to have. (The spec's decision D7.) -/
def Obligations.ErrorCarriesNoResult : Prop :=
  ∀ (k : ErrKind) (free : ResultPins),
    (Response.err k).encPre = none ∧ (Response.err k).decSize = none ∧ (Response.err k).decMsgId = none ∧
    (Response.err k).decIsCompressed = none ∧ (Response.err k).pins free = free

/-- R137: after any outcome the next request is answered as if the previous one had not happened. -/
def Obligations.OutcomeLeavesNoTrace : Prop :=
  ∀ (p q : RequestPorts) (rest : List RequestPorts) (given : List Response), ∃ rp rq : Response,
    Sys2Proof.core.run 2 { requests := p :: q :: rest, responses := given } =
      .next { requests := rest, responses := given ++ [rp, rq] } ∧
    step { requests := q :: rest, responses := given } =
      .next { requests := rest, responses := given ++ [rq] }

/-- R121: presenting the same `DEC` request again gives the same outcome: nothing is consumed. -/
def Obligations.SameRequestAgainGivesTheSameOutcome : Prop :=
  ∀ (bufLen : Nat) (buf : Record) (s : State), ∃ (r : Response) (t : State),
    exec (.dec bufLen buf) s = .next t ∧ t = s.respond r ∧
    exec (.dec bufLen buf) t = .next (t.respond r)

/-- R24, "There is no partial response and no second response": a step with a request waiting takes that request and
adds exactly one response; and no step whatever withdraws a response, adds a second one, or upsets the balance of
waiting requests and given responses. That a state without a request has a step, the idle one, is the model's choice
(notes/assumptions/3.md). -/
def Obligations.EachRequestIsAnsweredOnce : Prop :=
  (∀ (s : State) (p : RequestPorts) (rest : List RequestPorts), s.requests = p :: rest →
    ∃ (t : State) (r : Response),
      step s = .next t ∧ t.requests = rest ∧ t.responses = s.responses ++ [r]) ∧
  (∀ s t : State, step s = .next t →
    t.requests.length + t.responses.length = s.requests.length + s.responses.length ∧
    t.responses.length ≤ s.responses.length + 1 ∧
    s.responses <+: t.responses ∧ t.requests <:+ s.requests)

/-- R49 on one instance: however many requests are served, in whatever order they wait, each gets the outcome it would
have had alone. Two things are the model's choice and not the rule's: once the queue is served, the further steps are
idle (notes/assumptions/3.md); and there is one instance with one queue, where the rule speaks of any number
(notes/assumptions/10.md). -/
def Obligations.RunAnswersEachRequestAsIfAlone : Prop :=
  ∃ answer : RequestPorts → Response,
    (∀ p : RequestPorts, step { requests := [p], responses := [] } =
      .next { requests := [], responses := [answer p] }) ∧
    (∀ (k : Nat) (s : State), Sys2Proof.core.run k s =
      .next { requests := s.requests.drop k, responses := s.responses ++ (s.requests.take k).map answer })

/-- R104 (a) and (b) over runs: if every record given so far is canonical, so it is after any step. (R104 is marked by
the spec as its own inference; at a state without a request the step is the model's idle one, notes/assumptions/3.md.) -/
def Obligations.GivenRecordsStayCanonical : Prop :=
  ∀ s t : State, s.Good → step s = .next t → t.Good

/-- The invariant of `GivenRecordsStayCanonical` holds after reset, because the list of given responses is then empty,
which is the model's choice (notes/assumptions/9.md): the spec's table of reset values is empty. -/
def Obligations.GivenRecordsAreCanonicalAtReset : Prop :=
  State.reset.Good

/-- R160: reset leaves nothing; the first transaction after it has the outcome its request determines, as in every
other state; and a transaction cut by a reset gets no response and, issued again, the outcome it would have had.
Three things in it are the model's choice: that both lists are empty in `State.reset` (notes/assumptions/9.md), that
the transaction a reset cuts is the first request of the queue (notes/assumptions/5.md), and that the step after the
cut, with no request left, is idle (notes/assumptions/3.md). -/
def Obligations.ResetLeavesNothingAndCutsOneTransaction : Prop :=
  State.reset.requests = [] ∧ State.reset.responses = [] ∧
  (∀ (p : RequestPorts) (s : State), s.requests = [] → ∃ r : Response,
    step (State.reset.present p) = .next (State.reset.respond r) ∧
    step (s.present p) = .next (s.respond r)) ∧
  (∀ (s : State) (p : RequestPorts) (rest : List RequestPorts), s.requests = p :: rest →
    s.resetArrives.requests = rest ∧ s.resetArrives.responses = s.responses) ∧
  (∀ (s : State) (p : RequestPorts), s.requests = [p] →
    step s.resetArrives = .next s.resetArrives ∧ step (s.resetArrives.present p) = step s)
end

