-- ==== Sys2Proof/Laws/State.lean ====
section
/-! SUPPORT. One lemma per field of `State` and per update, so that no proof unfolds a record update. -/

namespace Sys2Proof.Machine

@[simp] theorem reset_requests : State.reset.requests = [] := rfl
@[simp] theorem reset_responses : State.reset.responses = [] := rfl

@[simp] theorem respond_requests (s : State) (r : Response) : (s.respond r).requests = s.requests := rfl
@[simp] theorem respond_responses (s : State) (r : Response) :
    (s.respond r).responses = s.responses ++ [r] := rfl

@[simp] theorem present_requests (s : State) (p : RequestPorts) :
    (s.present p).requests = s.requests ++ [p] := rfl
@[simp] theorem present_responses (s : State) (p : RequestPorts) : (s.present p).responses = s.responses := rfl

@[simp] theorem placeRequest_requests (s : State) (p : RequestPorts) :
    (s.placeRequest p).requests = p :: s.requests.drop 1 := rfl
@[simp] theorem placeRequest_responses (s : State) (p : RequestPorts) :
    (s.placeRequest p).responses = s.responses := rfl

@[simp] theorem resetArrives_requests (s : State) : s.resetArrives.requests = s.requests.drop 1 := rfl
@[simp] theorem resetArrives_responses (s : State) : s.resetArrives.responses = s.responses := rfl

/-- Two states with the same requests and the same responses are one state. -/
theorem state_eq {s t : State} (hq : s.requests = t.requests) (hr : s.responses = t.responses) : s = t := by
  cases s
  cases t
  simp_all

end Sys2Proof.Machine
end

