-- ==== Sys2Proof/Laws/Ops.lean ====
section
/-! SUPPORT. What each shared operation of Machine/Ops.lean can do, said once: read after write, the canonical
form, `MemRead` and `MemWrite`, the end of an operation, taking a request. -/

namespace Sys2Proof.Machine

/-! ### Byte spaces -/

theorem read_write_same (m : Memory) (a : Nat) (v : Byte) : (m.write a v).read a = some v := by
  induction m with
  | nil => simp [Memory.write, Memory.read]
  | cons c m ih =>
    obtain ⟨k, b⟩ := c
    simp only [Memory.write]
    split
    · simp [Memory.read]
    · split
      · simp [Memory.read]
      · have hk : k ≠ a := by omega
        simp [Memory.read, hk, ih]

theorem read_write_other (m : Memory) {a a' : Nat} (v : Byte) (h : a' ≠ a) :
    (m.write a v).read a' = m.read a' := by
  induction m with
  | nil => simp [Memory.write, Memory.read, Ne.symm h]
  | cons c m ih =>
    obtain ⟨k, b⟩ := c
    simp only [Memory.write]
    split
    · simp [Memory.read, Ne.symm h]
    · split
      · rename_i _ hk
        subst hk
        simp [Memory.read, Ne.symm h]
      · simp [Memory.read, ih]

/-- Reading after a write, both cases at once. -/
theorem read_write (m : Memory) (a a' : Nat) (v : Byte) :
    (m.write a v).read a' = if a' = a then some v else m.read a' := by
  split
  · rename_i h
    subst h
    exact read_write_same m _ v
  · rename_i h
    exact read_write_other m v h

theorem mem_write_key {m : Memory} {a : Nat} {v : Byte} {c : Host.Cell} (h : c ∈ m.write a v) :
    c.1 = a ∨ c ∈ m := by
  induction m with
  | nil => simp_all [Memory.write]
  | cons d m ih =>
    obtain ⟨k, b⟩ := d
    simp only [Memory.write] at h
    split at h
    · rcases List.mem_cons.1 h with rfl | h
      · exact .inl rfl
      · exact .inr h
    · split at h
      · rcases List.mem_cons.1 h with rfl | h
        · exact .inl rfl
        · exact .inr (List.mem_cons_of_mem _ h)
      · rcases List.mem_cons.1 h with rfl | h
        · exact .inr List.mem_cons_self
        · exact (ih h).imp_right (List.mem_cons_of_mem _)

/-- A write keeps the canonical form. -/
theorem write_wf {m : Memory} (h : m.wf) (a : Nat) (v : Byte) : (m.write a v).wf := by
  induction m with
  | nil => simp [Memory.write, Memory.wf]
  | cons c m ih =>
    obtain ⟨k, b⟩ := c
    obtain ⟨hk, hm⟩ := List.pairwise_cons.1 h
    simp only [Memory.write]
    split
    · rename_i ha
      refine List.pairwise_cons.2 ⟨?_, h⟩
      intro d hd
      rcases List.mem_cons.1 hd with rfl | hd
      · exact ha
      · exact Nat.lt_trans ha (hk d hd)
    · split
      · rename_i _ ha
        subst ha
        exact List.pairwise_cons.2 ⟨hk, hm⟩
      · refine List.pairwise_cons.2 ⟨?_, ih hm⟩
        intro d hd
        rcases mem_write_key hd with h1 | h1
        · show k < d.1
          omega
        · exact hk d h1

/-- The byte at offset `a` of a sequence laid out from `k` on. -/
theorem read_ofBytes (bs : List Byte) (k a : Nat) :
    (Memory.ofBytes k bs).read a = if k ≤ a then bs[a - k]? else none := by
  induction bs generalizing k with
  | nil => simp [Memory.ofBytes, Memory.read]
  | cons b bs ih =>
    simp only [Memory.ofBytes, Memory.read]
    by_cases hk : k = a
    · subst hk
      simp
    · by_cases ha : k ≤ a
      · have h1 : k + 1 ≤ a := by omega
        have h2 : a - k = a - (k + 1) + 1 := by omega
        simp [hk, ih, ha, h1, h2]
      · have h1 : ¬ k + 1 ≤ a := by omega
        simp [hk, ih, ha, h1]

theorem ofBytes_key {bs : List Byte} {k : Nat} {c : Host.Cell} (h : c ∈ Memory.ofBytes k bs) : k ≤ c.1 := by
  induction bs generalizing k with
  | nil => simp [Memory.ofBytes] at h
  | cons b bs ih =>
    rcases List.mem_cons.1 h with rfl | h
    · exact Nat.le_refl _
    · exact Nat.le_of_succ_le (ih h)

/-- A byte sequence laid out has the canonical form. -/
theorem ofBytes_wf (bs : List Byte) (k : Nat) : (Memory.ofBytes k bs).wf := by
  induction bs generalizing k with
  | nil => exact List.Pairwise.nil
  | cons b bs ih => exact List.pairwise_cons.2 ⟨fun _ hc => ofBytes_key hc, ih (k + 1)⟩

/-! ### `MemRead` -/

/-- All that reading `n` bytes can do: it stops exactly where one of the offsets holds no byte. -/
theorem readBytes_isOk (m : Memory) (off n acc : Nat) :
    (∃ v, readBytes m off n acc = .ok v) ↔ ∀ i < n, (m.read (off + i)).isSome = true := by
  induction n generalizing off acc with
  | zero => simp [readBytes]
  | succ n ih =>
    simp only [readBytes]
    cases hb : m.read off with
    | none =>
      simp only [reduceCtorEq, exists_false, false_iff]
      intro h
      have := h 0 (Nat.succ_pos n)
      simp [hb] at this
    | some b =>
      simp only [ih]
      constructor
      · intro h i hi
        cases i with
        | zero => simp [hb]
        | succ i =>
          have := h i (by omega)
          rwa [Nat.add_right_comm off 1 i] at this
      · intro h i hi
        have := h (i + 1) (by omega)
        rwa [Nat.add_right_comm off 1 i]

/-- `MemRead(off, 1)` is the byte at `off`. -/
theorem memRead_one {m : Memory} {off : Nat} {b : Byte} (h : m.read off = some b) :
    memRead m off 1 = .ok b.toNat := by
  simp [memRead, readBytes, h]

/-- `MemRead(off, 4)` is the big-endian sum of the four bytes at `off` (R9, R43). -/
theorem memRead_four {m : Memory} {off : Nat} {b0 b1 b2 b3 : Byte} (h0 : m.read off = some b0)
    (h1 : m.read (off + 1) = some b1) (h2 : m.read (off + 2) = some b2) (h3 : m.read (off + 3) = some b3) :
    memRead m off 4 =
      .ok (b0.toNat * 16777216 + b1.toNat * 65536 + b2.toNat * 256 + b3.toNat) := by
  have hw : accessWidth 4 := .inr rfl
  simp only [memRead, if_pos hw, readBytes, h0, h1, h2, h3]
  refine congrArg Except.ok ?_
  omega

/-- `MemRead` answers only at the two widths, and only where every byte it reads is there. -/
theorem memRead_ok {m : Memory} {off n v : Nat} (h : memRead m off n = .ok v) :
    accessWidth n ∧ ∀ i < n, (m.read (off + i)).isSome = true := by
  unfold memRead at h
  split at h
  · rename_i hw
    exact ⟨hw, (readBytes_isOk m off n 0).1 ⟨v, h⟩⟩
  · cases h

/-! ### `MemWrite` -/

/-- What the bytes hold after `n` bytes of `v` were stored at `off`: the bytes of `v`, the most significant first,
and outside them what was there. -/
theorem read_writeBytes (m : Memory) (off n v a : Nat) :
    (writeBytes m off n v).read a =
      if off ≤ a ∧ a < off + n then some (byteOf v (off + n - 1 - a)) else m.read a := by
  induction n generalizing m off with
  | zero =>
    have h : ¬ (off ≤ a ∧ a < off) := by omega
    simp [writeBytes, h]
  | succ n ih =>
    rw [writeBytes, ih, read_write]
    by_cases ha : a = off
    · subst ha
      have h1 : ¬ (a + 1 ≤ a ∧ a < a + 1 + n) := by omega
      have h2 : a ≤ a ∧ a < a + (n + 1) := by omega
      have h3 : a + (n + 1) - 1 - a = n := by omega
      rw [if_neg h1, if_pos rfl, if_pos h2, h3]
    · by_cases hb : off + 1 ≤ a ∧ a < off + 1 + n
      · have h2 : off ≤ a ∧ a < off + (n + 1) := by omega
        have h3 : off + (n + 1) - 1 - a = off + 1 + n - 1 - a := by omega
        rw [if_pos hb, if_pos h2, h3]
      · have h2 : ¬ (off ≤ a ∧ a < off + (n + 1)) := by omega
        rw [if_neg hb, if_neg ha, if_neg h2]

theorem writeBytes_wf {m : Memory} (h : m.wf) (off n v : Nat) : (writeBytes m off n v).wf := by
  induction n generalizing m off with
  | zero => exact h
  | succ n ih => exact ih (write_wf h off _) (off + 1)

/-- All that `MemWrite` can do when it answers. -/
theorem memWrite_ok {m m' : Memory} {off n v : Nat} (h : memWrite m off n v = .ok m') :
    accessWidth n ∧ v < 256 ^ n ∧ off + n ≤ preambleLen ∧ m' = writeBytes m off n v := by
  unfold memWrite at h
  split at h
  · rename_i hc
    exact ⟨hc.1, hc.2.1, hc.2.2, (Except.ok.inj h).symm⟩
  · cases h

/-- Where `MemWrite` is defined it answers. -/
theorem memWrite_defined (m : Memory) {off n v : Nat} (hw : accessWidth n) (hv : v < 256 ^ n)
    (ho : off + n ≤ preambleLen) : memWrite m off n v = .ok (writeBytes m off n v) :=
  if_pos ⟨hw, hv, ho⟩

/-- `MemWrite` keeps the canonical form. -/
theorem memWrite_wf {m m' : Memory} {off n v : Nat} (hm : m.wf) (h : memWrite m off n v = .ok m') : m'.wf := by
  obtain ⟨-, -, -, rfl⟩ := memWrite_ok h
  exact writeBytes_wf hm off n v

/-! ### The record -/

theorem recordByte_some {m : Memory} {a : Nat} {b : Byte} (h : m.read a = some b) : recordByte m a = .ok b := by
  simp [recordByte, h]

/-- `return pre[0..9]` gives the ten bytes, when all ten have been written. -/
theorem recordOf_eq {m : Memory} {p : Record} (h : ∀ (k : Nat) (hk : k < 10), m.read k = some p[k]) :
    recordOf m = .ok p := by
  simp only [recordOf, recordByte_some (h 0 (by omega)), recordByte_some (h 1 (by omega)),
    recordByte_some (h 2 (by omega)), recordByte_some (h 3 (by omega)), recordByte_some (h 4 (by omega)),
    recordByte_some (h 5 (by omega)), recordByte_some (h 6 (by omega)), recordByte_some (h 7 (by omega)),
    recordByte_some (h 8 (by omega)), recordByte_some (h 9 (by omega))]
  refine congrArg Except.ok ?_
  apply Vector.ext
  intro i hi
  interval_cases i <;> rfl

/-! ### The end of an operation, and the requester's side -/

/-- An operation goes on past a primitive that answers. -/
@[simp] theorem ok_bind {α β : Type} (a : α) (f : α → Except Fault β) :
    ((Except.ok a : Except Fault α) >>= f) = f a := rfl

/-- An operation stops at a primitive that stops. -/
@[simp] theorem error_bind {α β : Type} (e : Fault) (f : α → Except Fault β) :
    ((Except.error e : Except Fault α) >>= f) = .error e := rfl

@[simp] theorem conclude_ok (s : State) (r : Response) : conclude s (.ok r) = .next (s.respond r) := rfl
@[simp] theorem conclude_error (s : State) (f : Fault) : conclude s (.error f) = .fault f := rfl
@[simp] theorem conclude_raiseErr (s : State) (k : ErrKind) :
    conclude s (raiseErr k) = .next (s.respond (.err k)) := rfl

/-- Two answers over one state are the same exactly when their responses are. -/
theorem next_respond_inj {s : State} {r r' : Response} :
    (.next (s.respond r) : Host.Outcome State Fault Refusal) = .next (s.respond r') ↔ r = r' := by
  refine ⟨fun h => ?_, fun h => h ▸ rfl⟩
  have hr := congrArg State.responses (Host.Outcome.next.inj h)
  simpa using hr

/-- All that the end of an operation can do: it gives one response, or the model stops. -/
theorem conclude_next {s t : State} {e : Except Fault Response} (h : conclude s e = .next t) :
    ∃ r, e = .ok r ∧ t = s.respond r := by
  cases e with
  | error f => cases h
  | ok r =>
    cases h
    exact ⟨r, rfl, rfl⟩

theorem fetch_none {s : State} (h : s.requests = []) : fetch s = none := by
  simp [fetch, h]

theorem fetch_some {s : State} {p : RequestPorts} {rest : List RequestPorts} (h : s.requests = p :: rest) :
    fetch s = some (p, { s with requests := rest }) := by
  simp [fetch, h]

end Sys2Proof.Machine
end

