-- ==== Sys2Proof/Laws/Operands.lean ====
section
/-! SUPPORT. What the operand buffer of `DEC` holds, and the ports' view of a byte sequence. -/

namespace Sys2Proof.Machine

/-- Lane `k` is a byte of the operand buffer exactly when `k < dec_buf_len`, and only ten lanes exist (R26, R48). -/
theorem read_operandBuffer (bufLen : Nat) (lanes : Record) (k : Nat) :
    (operandBuffer bufLen lanes).read k = if k < bufLen then lanes[k]? else none := by
  simp [operandBuffer, read_ofBytes, List.getElem?_take]

theorem operandBuffer_wf (bufLen : Nat) (lanes : Record) : (operandBuffer bufLen lanes).wf :=
  ofBytes_wf _ 0

/-- Where the sequence has a byte, the lane holds it. -/
theorem lanesOf_get (buf : List Byte) (other : Record) {k : Nat} (hk : k < 10) (hb : k < buf.length) :
    (lanesOf buf other)[k] = buf[k] := by
  simp [lanesOf, hb]

/-- Where the sequence has no byte, the lane holds what it held. -/
theorem lanesOf_get_other (buf : List Byte) (other : Record) {k : Nat} (hk : k < 10) (hb : buf.length ≤ k) :
    (lanesOf buf other)[k] = other[k] := by
  simp [lanesOf, hb]

@[simp] theorem flagByte_false : flagByte false = 0#8 := rfl
@[simp] theorem flagByte_true : flagByte true = 1#8 := rfl

/-- Widening a boolean to a byte and reducing it again gives the boolean (R68 c, R69 b). -/
@[simp] theorem flagBool_flagByte (c : Bool) : flagBool (flagByte c) = c := by
  cases c <;> rfl

end Sys2Proof.Machine
end

