-- ==== Sys2Proof/Laws/PerInstr.lean ====
section
/-! SUPPORT. Statements about every instruction as syntax, one lemma per constructor (the families that LAWS.json
lists). -/

namespace Sys2Proof.Laws

/-- A well-formed instruction is encoded into ports that fit the widths, whatever fitting values the ports of the
other format hold (R25, R26). -/
def EncodeFits.Statement (i : Instr) : Prop :=
  ∀ (c : Params) (other : RequestPorts), i.wellFormed c = true → other.fits c = true →
    (encode other i).fits c = true

theorem EncodeFits.enc (msgId : Word) (bodyLen : Nat) (isCompressed : Bool) :
    EncodeFits.Statement (.enc msgId bodyLen isCompressed) := by
  intro c other hi ho
  simp_all [Instr.wellFormed, RequestPorts.fits, encode]

theorem EncodeFits.dec (bufLen : Nat) (lanes : Record) : EncodeFits.Statement (.dec bufLen lanes) := by
  intro c other hi ho
  simp_all [Instr.wellFormed, RequestPorts.fits, encode]

end Sys2Proof.Laws
end

