-- ==== Sys2Proof/Laws/Response.lean ====
section
/-! SUPPORT. The output ports of each response format, one lemma per port and format. -/

namespace Sys2Proof.Machine

@[simp] theorem status_encOk (pre : Record) : (Response.encOk pre).status = 0#2 := rfl
@[simp] theorem status_decOk (z m : Word) (c : Bool) : (Response.decOk z m c).status = 0#2 := rfl
@[simp] theorem status_err (k : ErrKind) : (Response.err k).status = k.status := rfl

@[simp] theorem encPre_encOk (pre : Record) : (Response.encOk pre).encPre = some pre := rfl
@[simp] theorem encPre_decOk (z m : Word) (c : Bool) : (Response.decOk z m c).encPre = none := rfl
@[simp] theorem encPre_err (k : ErrKind) : (Response.err k).encPre = none := rfl

@[simp] theorem decSize_encOk (pre : Record) : (Response.encOk pre).decSize = none := rfl
@[simp] theorem decSize_decOk (z m : Word) (c : Bool) : (Response.decOk z m c).decSize = some z := rfl
@[simp] theorem decSize_err (k : ErrKind) : (Response.err k).decSize = none := rfl

@[simp] theorem decMsgId_encOk (pre : Record) : (Response.encOk pre).decMsgId = none := rfl
@[simp] theorem decMsgId_decOk (z m : Word) (c : Bool) : (Response.decOk z m c).decMsgId = some m := rfl
@[simp] theorem decMsgId_err (k : ErrKind) : (Response.err k).decMsgId = none := rfl

@[simp] theorem decIsCompressed_encOk (pre : Record) : (Response.encOk pre).decIsCompressed = none := rfl
@[simp] theorem decIsCompressed_decOk (z m : Word) (c : Bool) :
    (Response.decOk z m c).decIsCompressed = some (boolToBit c) := rfl
@[simp] theorem decIsCompressed_err (k : ErrKind) : (Response.err k).decIsCompressed = none := rfl

/-- Only success has status 0 (R131). -/
theorem errStatus_ne_zero (k : ErrKind) : k.status ≠ 0#2 := by
  cases k <;> decide

end Sys2Proof.Machine
end

