-- ==== Sys2Proof/Tests/Slice0.lean ====
section
/-! SUPPORT. The model's own tests: the expected results are the vectors of spec/95_test_vectors.md (named in each
docstring) or the encoding of spec/30_encoding.md, never the model's answer. Below them, one witness for the
hypotheses of each statement that has any. -/

namespace Sys2Proof.Tests

open Sys2Proof.Machine

/-! ### Helpers -/

/-- An `ENC` request at the ports, the `DEC` ports at levels that must not matter. -/
def encPorts (msgId : Word) (bodyLen : Nat) (c : BitVec 1) : RequestPorts where
  reqOp := 0#1
  encMsgId := msgId
  encBodyLen := bodyLen
  encIsCompressed := c
  decBufLen := 7
  decBuf := #v[1#8, 2#8, 3#8, 4#8, 5#8, 6#8, 7#8, 8#8, 9#8, 10#8]

/-- A `DEC` request at the ports, the `ENC` ports at levels that must not matter. -/
def decPorts (bufLen : Nat) (buf : Record) : RequestPorts where
  reqOp := 1#1
  encMsgId := 0xAAAAAAAA#32
  encBodyLen := 4294967295
  encIsCompressed := 1#1
  decBufLen := bufLen
  decBuf := buf

/-- A state with one request and no response yet. -/
def asked (p : RequestPorts) : State := { requests := [p], responses := [] }

/-- The responses given when a step goes on. -/
def given : Host.Outcome State Fault Refusal → Option (List Response)
  | .next t => some t.responses
  | .fault _ => none
  | .refused _ => none

/-- The source's scenario with its corrected checksum, vector E1. -/
def recordE1 : Record := #v[0x3F, 0, 0, 0, 1, 0, 0, 0, 1, 0]

/-! ### Well-formedness refuses what the ports cannot carry -/

/-- 2^32 does not fit in a 32-bit `enc_body_len` (R25). -/
theorem test_enc_body_len_too_wide : (Instr.enc 0#32 4294967296 false).wellFormed Params.standard = false := by
  decide

/-- 2^32 does not fit in a 32-bit `dec_buf_len` (R26). -/
theorem test_dec_buf_len_too_wide : (Instr.dec 4294967296 recordE1).wellFormed Params.standard = false := by
  decide

/-- A port that is not selected has its width too. -/
theorem test_unselected_port_too_wide : (decPorts 10 recordE1).fits { bodyLenW := 31 } = false := by decide

/-- The constraint on `BUF_LEN_W` (R6): a width of 3 cannot tell 10 from smaller lengths. -/
theorem test_buf_len_width_three_is_not_legal : ¬ ({ bufLenW := 3 } : Params).Legal := by decide

/-! ### Decoding words written out from the encoding (R65: `req_op` 0 is `ENC`, 1 is `DEC`) -/

theorem test_decode_enc_word : decodeTableWord 8 0b0 = some (.enc 0#32 0 false) := by decide

theorem test_decode_dec_word : decodeTableWord 8 0b1 = some (.dec 0 #v[0, 0, 0, 0, 0, 0, 0, 0, 0, 0]) := by decide

/-- Program P1, line 1: `req_op=0 enc_msg_id=0x2A enc_body_len=0xB enc_is_compressed=0`. -/
theorem test_decode_enc_request : decode (encPorts 0x2A#32 11 0#1) = .enc 42#32 11 false := by decide

/-- Program P1, line 3: `req_op=1 dec_buf_len=22 dec_buf[0..9]=0B 00 00 00 0C 00 00 00 2A 00`. -/
theorem test_decode_dec_request :
    decode (decPorts 22 #v[0x0B, 0, 0, 0, 0x0C, 0, 0, 0, 0x2A, 0]) =
      .dec 22 #v[11, 0, 0, 0, 12, 0, 0, 0, 42, 0] := by decide

/-- Without a byte there is no operation select, and the rejection says so. -/
theorem test_decode_no_bytes : requestOfBytes [] = .error .noOperationSelect := by rfl

/-! ### The operations -/

/-- Vectors F4 and F11: the checksum can be zero, and the upper 24 bits are ignored. -/
theorem test_sof_vectors : sof 61#32 = 0x00#8 ∧ sof 0x12345678#32 = 0x45#8 := by decide

/-- Vectors F6 and F8: bit 7 passes through, and all ones give the magic. -/
theorem test_sof_bit_seven : sof 128#32 = 0xBD#8 ∧ sof 255#32 = 0xC2#8 := by decide

/-- Vector E9: both fields big-endian, the flag in byte 9. -/
theorem test_enc_big_endian : given (step (asked (encPorts 0x12345678#32 511 1#1))) =
    some [.encOk #v[0x45, 0x00, 0x00, 0x02, 0x00, 0x12, 0x34, 0x56, 0x78, 0x01]] := by decide

/-- Vector E15: the overflow guard. -/
theorem test_enc_overflow :
    given (step (asked (encPorts 0#32 4294967295 0#1))) = some [.err .sizeOverflow] := by decide

/-- Vector K14: flag byte 0x80 is true. -/
theorem test_dec_flag_byte_80 : given (step (asked (decPorts 10 #v[0x3F, 0, 0, 0, 1, 0, 0, 0, 1, 0x80]))) =
    some [.decOk 1#32 1#32 true] := by decide

/-- Vector K24: a record shifted by one byte. -/
theorem test_dec_shifted : given (step (asked (decPorts 11 #v[0, 0, 0, 1, 0, 0, 0, 1, 0, 1]))) =
    some [.err .frameError] := by decide

/-- The table's two words run as the first instruction after reset: vector E3, and a buffer of length 0 (K1). -/
theorem test_first_word_after_reset :
    given (step (State.reset.withFetchWord 8 0)) = some [.encOk #v[0x3C, 0, 0, 0, 1, 0, 0, 0, 0, 0]] ∧
    given (step (State.reset.withFetchWord 8 1)) = some [.err .shortBuffer] := by decide

/-- `MemRead` is not defined past the bytes of the buffer (R9), so the model stops there: bytes 1 to 3 only. -/
theorem test_memRead_past_the_buffer :
    memRead (Memory.ofBytes 0 [1, 2, 3, 4]) 1 4 = .error .readUndefined := by rfl

/-- `MemWrite` requires a value that fits (R9). -/
theorem test_memWrite_too_large : memWrite [] 0 1 256 = .error .writeUndefined := by rfl

/-! ### Witnesses: the hypotheses of the statements can be met -/

theorem witness_SofDependsOnLowByteOnly : 511 % 256 = 255 % 256 ∧ 8 ≤ 8 := by decide

/-- Records that agree in bytes 4 and 8 and differ elsewhere. -/
theorem witness_RecordChecksumNeedsTwoBytes :
    let q : Record := #v[0x3F, 9, 0, 0, 1, 0, 9, 0, 1, 5]
    recordE1[4] = q[4] ∧ recordE1[8] = q[8] := by decide

/-- The largest accepted and the smallest refused length at the default width; the widest length at width 31. -/
theorem witness_EncOverflowsExactlyWhenSizeDoesNotFit :
    (Instr.enc 1#32 4294967294 true).wellFormed Params.standard = true ∧
    (Instr.enc 1#32 4294967295 true).wellFormed Params.standard = true ∧
    (Instr.enc 1#32 2147483647 true).wellFormed { bodyLenW := 31 } = true ∧
    (Instr.enc 1#32 4294967296 true).wellFormed { bodyLenW := 33 } = true := by decide

/-- Vector E1 gives the record of which the statement speaks. -/
theorem witness_EncRecordIsCanonicalAndTellsItsOperands :
    exec (.enc 1#32 0 false) State.reset = .next (State.reset.respond (.encOk recordE1)) := by rfl

theorem witness_EncFlagChangesByteNineOnly : 4294967294 ≤ 4294967294 := by decide

theorem witness_DecIsShortExactlyBelowTen : 9 < 10 ∧ 0 < 10 := by decide

/-- Lanes that agree below the length 9 and differ at 9; a sequence of ten bytes. -/
theorem witness_DecDependsOnTheFirstTenBytes :
    (∀ (k : Nat) (hk : k < 10), k < 9 → recordE1[k] = (recordE1.set 9 7#8)[k]) ∧
    (9 < 10 ∧ 0 < 10 ∧ 10 ≤ 10 ∧ 10 ≤ 4294967295) ∧ recordE1.toList.length = 10 := by decide

theorem witness_DecComparesTheChecksum : 10 ≤ 10 ∧ recordE1[0] = sof (recordSize recordE1 + recordMsgId recordE1) := by
  decide

theorem witness_DecReturnsTheFieldsOfEveryValidRecord : 10 ≤ 10 ∧ validRecord recordE1 = true := by decide

/-- Vectors K11 (`size` 0, with length 10) and K10 (the largest `size`), and a `size` in between. -/
theorem witness_DecMakesNoOtherCheck :
    let z : Record := #v[0x3D, 0, 0, 0, 0, 0, 0, 0, 0, 0]
    let f : Record := #v[0xC3, 0xFF, 0xFF, 0xFF, 0xFF, 0xFF, 0xFF, 0xFF, 0xFF, 0xFF]
    10 ≤ 10 ∧
    (validRecord z = true ∧ recordSize z = 0#32 ∧ recordMsgId z = 0#32 ∧ z[9] = 0#8) ∧
    (validRecord f = true ∧ recordSize f = 0xFFFFFFFF#32 ∧ recordMsgId f = 0xFFFFFFFF#32 ∧ f[9] = 0xFF#8) ∧
    (validRecord recordE1 = true ∧ recordSize recordE1 = 1#32 ∧ recordMsgId recordE1 = 1#32 ∧
      recordE1[9] = 0#8) := by decide

/-- The second direction: vector K5 at length 10, with `size` 1. -/
theorem witness_PreambleRoundTrip : 4294967294 ≤ 4294967294 ∧
    exec (.dec 10 recordE1) State.reset = .next (State.reset.respond (.decOk 1#32 1#32 false)) ∧
    1 ≤ (1#32 : Word).toNat := ⟨by decide, rfl, by decide⟩

theorem witness_DecDetectsChangesOfTheChecksumBytes : 10 ≤ 10 ∧ validRecord recordE1 = true ∧
    0x47#8 ≠ recordE1[0] ∧ 0#8 ≠ recordE1[4] ∧ 2#8 ≠ recordE1[8] := by decide

/-- Vectors K19 and K21 against K16. -/
theorem witness_DecMissesChangesThatKeepTheSum :
    let p : Record := #v[0x30, 0, 0, 0, 6, 0, 0, 0, 7, 1]
    let q : Record := #v[0x30, 0x12, 0, 0, 6, 0, 0, 0, 7, 1]
    let q' : Record := #v[0x30, 0, 0, 0, 7, 0, 0, 0, 6, 1]
    10 ≤ 10 ∧ validRecord p = true ∧ (q[0] = p[0] ∧ q[4] = p[4] ∧ q[8] = p[8]) ∧
    q'[0] ^^^ 61#8 = q'[4] + q'[8] := by decide

/-- The bytes 1 to 8 of vector E1's record, at both offsets. -/
theorem witness_BigEndianFieldIsReadBack :
    let m := Memory.ofBytes 0 recordE1.toList
    (m.read 1 = some 0#8 ∧ m.read 2 = some 0#8 ∧ m.read 3 = some 0#8 ∧ m.read 4 = some 1#8) ∧
    (m.read 5 = some 0#8 ∧ m.read 6 = some 0#8 ∧ m.read 7 = some 0#8 ∧ m.read 8 = some 1#8) := by decide

theorem witness_ValidityIsAConditionOnThreeBytes :
    let q : Record := #v[0x3F, 9, 0, 0, 1, 0, 9, 0, 1, 5]
    recordE1[0] = q[0] ∧ recordE1[4] = q[4] ∧ recordE1[8] = q[8] := by decide

/-- Vector K8: ten zero bytes are no valid record. -/
theorem witness_InvalidRecordGivesFrameErrorAndNothingElse :
    10 ≤ 10 ∧ validRecord (Vector.replicate 10 0#8) = false := by decide

theorem witness_FlagByteIsNonzeroForTrue : 4294967294 ≤ 4294967294 ∧ 10 ≤ 10 ∧ validRecord recordE1 = true := by
  decide

/-- Vector K11: a valid record whose `size` is 0; and vector E1's is canonical. -/
theorem witness_CanonicalExactlyWhenEncProducesIt :
    let z : Record := #v[0x3D, 0, 0, 0, 0, 0, 0, 0, 0, 0]
    canonicalRecord recordE1 = true ∧ 10 ≤ 10 ∧ validRecord z = true ∧ recordSize z = 0#32 ∧
    canonicalRecord z = false := by decide

theorem witness_OperationSelectNamesTheOperation :
    (encPorts 0#32 0 1#1).reqOp = 0#1 ∧ (decPorts 10 recordE1).reqOp = 1#1 := by decide

theorem witness_RequestDecodeAndEncodeAgree :
    (encPorts 0#32 4294967295 1#1).fits Params.standard = true ∧
    (decPorts 4294967295 recordE1).fits Params.standard = true := by decide

theorem witness_StepRunsTheDecodedRequest :
    (asked (decPorts 10 recordE1)).requests = decPorts 10 recordE1 :: [] ∧
    (Instr.dec 10 recordE1).wellFormed Params.standard = true ∧
    (Instr.enc 1#32 4294967295 true).wellFormed Params.standard = true := by decide

theorem witness_NothingHappensWithoutARequest : State.reset.requests = [] := by decide

/-- Two `ENC` requests that differ in the ports of `DEC`, and two `DEC` requests that differ in the ports of `ENC`. -/
theorem witness_ResponseIsAFunctionOfTheRequest :
    let e := encPorts 1#32 0 1#1
    let e' := { e with decBufLen := 0, decBuf := recordE1 }
    let d := decPorts 10 recordE1
    let d' := { d with encMsgId := 0#32, encBodyLen := 0, encIsCompressed := 0#1 }
    (e.reqOp = e'.reqOp ∧ (e.encMsgId = e'.encMsgId ∧ e.encBodyLen = e'.encBodyLen ∧
      e.encIsCompressed = e'.encIsCompressed) ∧ e.reqOp ≠ 1#1 ∧ e ≠ e') ∧
    (d.reqOp = d'.reqOp ∧ (d.decBufLen = d'.decBufLen ∧ d.decBuf = d'.decBuf) ∧ d.reqOp ≠ 0#1 ∧ d ≠ d') := by
  decide

theorem witness_EveryOperationEnds :
    (asked (decPorts 10 recordE1)).requests = decPorts 10 recordE1 :: [] := by decide

/-- A step that answers a request, and one that has none to answer. -/
theorem witness_EachRequestIsAnsweredOnce :
    (asked (encPorts 1#32 0 0#1)).requests = encPorts 1#32 0 0#1 :: [] ∧
    step (asked (encPorts 1#32 0 0#1)) = .next { requests := [], responses := [.encOk recordE1] } ∧
    step State.reset = .next State.reset := ⟨rfl, rfl, rfl⟩

/-- A good state that has given a record, and its next step. -/
theorem witness_GivenRecordsStayCanonical :
    let s : State := { requests := [decPorts 10 recordE1], responses := [.encOk recordE1] }
    s.Good ∧ step s = .next { requests := [], responses := [.encOk recordE1, .decOk 1#32 1#32 false] } :=
  ⟨by decide, rfl⟩

theorem witness_ResetLeavesNothingAndCutsOneTransaction :
    State.reset.requests = [] ∧ (asked (decPorts 10 recordE1)).requests = [decPorts 10 recordE1] := by decide

end Sys2Proof.Tests
end

section
/-! PROOFS. What each operation answers, said once: the answer of an instruction is a function of its operands
(`answer`), `exec` gives it (`exec_eq`), and a step takes one request and gives the answer of what it decodes to
(`step_eq`). The statements of 10_state.md about the response follow from these three. -/

namespace Sys2Proof.Machine

/-! ### Bytes of a field -/

/-- Four bytes joined, the most significant first, are the big-endian number of R43. -/
theorem toNat_append_four (b0 b1 b2 b3 : Byte) :
    (b0 ++ b1 ++ b2 ++ b3 : Word).toNat =
      b0.toNat * 16777216 + b1.toNat * 65536 + b2.toNat * 256 + b3.toNat := by
  have append_byte {w : Nat} (x : BitVec w) (b : Byte) : (x ++ b).toNat = x.toNat * 256 + b.toNat := by
    rw [BitVec.toNat_append, ← Nat.shiftLeft_add_eq_or_of_lt b.isLt, Nat.shiftLeft_eq]
  simp only [append_byte]
  omega

/-- `MemRead(off, 4)` is the four bytes at `off` joined. -/
theorem memRead_four_append {m : Memory} {off : Nat} {b0 b1 b2 b3 : Byte} (h0 : m.read off = some b0)
    (h1 : m.read (off + 1) = some b1) (h2 : m.read (off + 2) = some b2) (h3 : m.read (off + 3) = some b3) :
    memRead m off 4 = .ok (b0 ++ b1 ++ b2 ++ b3 : Word).toNat := by
  rw [memRead_four h0 h1 h2 h3, toNat_append_four]

/-- Byte `k` of a field is its slice of eight bits at `8k`. -/
theorem byteOf_toNat {w : Nat} (v : BitVec w) (k : Nat) : byteOf v.toNat k = v.extractLsb' (8 * k) 8 := rfl

/-! ### `ENC` -/

/-- The record of R100, its ten bytes written out. -/
def encRecord (size msgId : Word) (isCompressed : Bool) : Record :=
  #v[sof (sofInput size msgId),
    size.extractLsb' 24 8, size.extractLsb' 16 8, size.extractLsb' 8 8, size.extractLsb' 0 8,
    msgId.extractLsb' 24 8, msgId.extractLsb' 16 8, msgId.extractLsb' 8 8, msgId.extractLsb' 0 8,
    flagByte isCompressed]

/-- The four writes of `ENC` are all defined and cover the ten bytes of the record. -/
theorem buildRecord_eq (size msgId : Word) (isCompressed : Bool) :
    buildRecord size msgId isCompressed = .ok (encRecord size msgId isCompressed) := by
  unfold buildRecord
  rw [memWrite_defined (off := offSof) (n := sofBytes) _ (.inl rfl) (BitVec.isLt _) (by decide), ok_bind,
    memWrite_defined (off := offSize) (n := sizeBytes) _ (.inr rfl) (BitVec.isLt _) (by decide), ok_bind,
    memWrite_defined (off := offId) (n := idBytes) _ (.inr rfl) (BitVec.isLt _) (by decide), ok_bind,
    memWrite_defined (off := offFlag) (n := flagBytes) _ (.inl rfl) (BitVec.isLt _) (by decide), ok_bind]
  apply recordOf_eq
  intro k hk
  simp only [read_writeBytes, offSof, offSize, offId, offFlag, sofBytes, sizeBytes, idBytes, flagBytes,
    byteOf_toNat, encRecord]
  interval_cases k <;> simp

/-- What `ENC` answers (R100, R101). -/
def encAnswer (msgId : Word) (bodyLen : Nat) (isCompressed : Bool) : Response :=
  if encSize bodyLen > maxSize then .err .sizeOverflow
  else .encOk (encRecord (BitVec.ofNat 32 (encSize bodyLen)) msgId isCompressed)

theorem encodePreamble_eq (msgId : Word) (bodyLen : Nat) (isCompressed : Bool) :
    encodePreamble msgId bodyLen isCompressed = .ok (encAnswer msgId bodyLen isCompressed) := by
  unfold encodePreamble encAnswer
  split
  · rfl
  · rw [buildRecord_eq]
    rfl

/-- `ENC` answers an error or a record, and nothing of `DEC`. -/
theorem encAnswer_cases (msgId : Word) (bodyLen : Nat) (isCompressed : Bool) :
    encAnswer msgId bodyLen isCompressed = .err .sizeOverflow ∨
      ∃ pre, encAnswer msgId bodyLen isCompressed = .encOk pre := by
  unfold encAnswer
  split
  · exact .inl rfl
  · exact .inr ⟨_, rfl⟩

/-! ### `DEC` -/

/-- From length 10 on, every lane is a byte of the operand buffer. -/
theorem read_operandBuffer_of_ten_le {bufLen : Nat} (hlen : 10 ≤ bufLen) (lanes : Record) {k : Nat} (hk : k < 10) :
    (operandBuffer bufLen lanes).read k = some lanes[k] := by
  rw [read_operandBuffer, if_pos (by omega), Vector.getElem?_eq_getElem hk]

theorem validRecord_iff (p : Record) :
    validRecord p = true ↔ p[0] = sof (recordSize p + recordMsgId p) :=
  beq_iff_eq

/-- What `DEC` answers (R110): the length check, then the checksum, then the three fields. -/
def decAnswer (bufLen : Nat) (lanes : Record) : Response :=
  if bufLen < preambleLen then .err .shortBuffer
  else if validRecord lanes = true then
    .decOk (recordSize lanes) (recordMsgId lanes) (flagBool lanes[9])
  else .err .frameError

/-- `DEC` over any bytes that begin with a record: every `MemRead` is defined, and the checksum comparison is the
record's validity. -/
theorem decodePreamble_of_record {len : Nat} {buf : Memory} {p : Record} (hlen : ¬ len < preambleLen)
    (hbuf : ∀ (k : Nat) (hk : k < 10), buf.read k = some p[k]) :
    decodePreamble len buf =
      .ok (if validRecord p = true then .decOk (recordSize p) (recordMsgId p) (flagBool p[9])
        else .err .frameError) := by
  have hsof : memRead buf offSof sofBytes = .ok p[0].toNat := memRead_one (hbuf 0 (by decide))
  have hsize : memRead buf offSize sizeBytes = .ok (recordSize p).toNat :=
    memRead_four_append (hbuf 1 (by decide)) (hbuf 2 (by decide)) (hbuf 3 (by decide)) (hbuf 4 (by decide))
  have hid : memRead buf offId idBytes = .ok (recordMsgId p).toNat :=
    memRead_four_append (hbuf 5 (by decide)) (hbuf 6 (by decide)) (hbuf 7 (by decide)) (hbuf 8 (by decide))
  have hflag : memRead buf offFlag flagBytes = .ok p[9].toNat := memRead_one (hbuf 9 (by decide))
  unfold decodePreamble
  rw [if_neg hlen, hsof, hsize, hid, hflag]
  simp only [ok_bind, BitVec.ofNat_toNat, BitVec.setWidth_eq]
  by_cases h : validRecord p = true
  · rw [if_pos h]
    exact if_neg (not_not.2 ((validRecord_iff p).1 h).symm)
  · rw [if_neg h]
    exact if_pos fun hsum => h ((validRecord_iff p).2 hsum.symm)

theorem decodePreamble_operandBuffer (bufLen : Nat) (lanes : Record) :
    decodePreamble bufLen (operandBuffer bufLen lanes) = .ok (decAnswer bufLen lanes) := by
  unfold decAnswer
  by_cases hlen : bufLen < preambleLen
  · rw [if_pos hlen]
    exact if_pos hlen
  · rw [if_neg hlen]
    exact decodePreamble_of_record hlen fun k hk => read_operandBuffer_of_ten_le (Nat.le_of_not_lt hlen) lanes hk

/-- `DEC` answers an error or the three fields, and nothing of `ENC`. -/
theorem decAnswer_cases (bufLen : Nat) (lanes : Record) :
    (∃ kind, decAnswer bufLen lanes = .err kind) ∨
      ∃ size msgId isCompressed, decAnswer bufLen lanes = .decOk size msgId isCompressed := by
  unfold decAnswer
  split
  · exact .inl ⟨_, rfl⟩
  · split
    · exact .inr ⟨_, _, _, rfl⟩
    · exact .inl ⟨_, rfl⟩

/-! ### Every instruction, and one step -/

/-- What an instruction answers: a function of its operands, with no state in it (R30). -/
def answer : Instr → Response
  | .enc msgId bodyLen isCompressed => encAnswer msgId bodyLen isCompressed
  | .dec bufLen lanes => decAnswer bufLen lanes

@[simp] theorem answer_enc (msgId : Word) (bodyLen : Nat) (isCompressed : Bool) :
    answer (.enc msgId bodyLen isCompressed) = encAnswer msgId bodyLen isCompressed := rfl
@[simp] theorem answer_dec (bufLen : Nat) (lanes : Record) :
    answer (.dec bufLen lanes) = decAnswer bufLen lanes := rfl

/-- Every operation ends with its answer, in every state, and changes nothing else (R24, R31). -/
theorem exec_eq (i : Instr) (s : State) : exec i s = .next (s.respond (answer i)) := by
  cases i with
  | enc msgId bodyLen isCompressed => exact congrArg (conclude s) (encodePreamble_eq msgId bodyLen isCompressed)
  | dec bufLen lanes => exact congrArg (conclude s) (decodePreamble_operandBuffer bufLen lanes)

theorem step_of_request {s : State} {p : RequestPorts} {rest : List RequestPorts} (h : s.requests = p :: rest) :
    step s = exec (decode p) { s with requests := rest } := by
  simp only [step, fetch_some h]

/-- A step with a request takes that request and gives its answer (R24). -/
theorem step_eq {s : State} {p : RequestPorts} {rest : List RequestPorts} (h : s.requests = p :: rest) :
    step s = .next { requests := rest, responses := s.responses ++ [answer (decode p)] } :=
  (step_of_request h).trans (exec_eq _ _)

/-! ### The decoder of requests -/

/-- The select has two values (R65). -/
theorem opSelect_cases (op : OpSelect) : op = 0#1 ∨ op = 1#1 := by
  revert op
  decide

theorem decode_of_select_enc {p : RequestPorts} (h : p.reqOp = 0#1) :
    decode p = .enc p.encMsgId p.encBodyLen (bitToBool p.encIsCompressed) :=
  if_pos h

theorem decode_of_select_dec {p : RequestPorts} (h : p.reqOp = 1#1) : decode p = .dec p.decBufLen p.decBuf :=
  if_neg (by rw [h]; decide)

/-- Only the operand ports of the selected format are read (R25, R26). -/
theorem decode_congr {p q : RequestPorts} (hop : p.reqOp = q.reqOp)
    (henc : p.reqOp = 0#1 → p.encMsgId = q.encMsgId ∧ p.encBodyLen = q.encBodyLen ∧
      p.encIsCompressed = q.encIsCompressed)
    (hdec : p.reqOp = 1#1 → p.decBufLen = q.decBufLen ∧ p.decBuf = q.decBuf) : decode p = decode q := by
  rcases opSelect_cases p.reqOp with h | h
  · obtain ⟨hid, hlen, hflag⟩ := henc h
    rw [decode_of_select_enc h, decode_of_select_enc (hop ▸ h), hid, hlen, hflag]
  · obtain ⟨hlen, hbuf⟩ := hdec h
    rw [decode_of_select_dec h, decode_of_select_dec (hop ▸ h), hlen, hbuf]

/-! ### The statements of 10_state.md -/

/-- Settles O32: the two requests decode to one instruction, and the answer is a function of that. -/
theorem responseIsAFunctionOfTheRequest : Obligations.ResponseIsAFunctionOfTheRequest := by
  intro p q rest rest' given given' hop henc hdec
  refine ⟨answer (decode p), step_eq rfl, ?_⟩
  rw [decode_congr hop henc hdec]
  exact step_eq rfl

/-- Settles O33: there is an answer by `exec_eq` and `step_eq`, and two answers over one state are equal
(`next_respond_inj`). -/
theorem everyOperationEnds : Obligations.EveryOperationEnds := by
  constructor
  · intro i s
    refine ⟨answer i, exec_eq i s, fun r hr => ?_⟩
    exact next_respond_inj.1 (hr.symm.trans (exec_eq i s))
  · intro s p rest h
    refine ⟨answer (decode p), step_eq h, fun r hr => ?_⟩
    exact next_respond_inj (s := { s with requests := rest }).1 (hr.symm.trans (step_eq h))

/-- Settles O34, along the operation select and the two kinds of answer each operation has. -/
theorem resultPortsCarryValuesExactlyOnOk : Obligations.ResultPortsCarryValuesExactlyOnOk := by
  intro p rest given
  refine ⟨answer (decode p), step_eq rfl, ?_⟩
  rcases opSelect_cases p.reqOp with hop | hop
  · rw [decode_of_select_enc hop, answer_enc, hop]
    rcases encAnswer_cases p.encMsgId p.encBodyLen (bitToBool p.encIsCompressed) with h | ⟨pre, h⟩
    · simp [h, errStatus_ne_zero]
    · simp [h]
  · rw [decode_of_select_dec hop, answer_dec, hop]
    rcases decAnswer_cases p.decBufLen p.decBuf with ⟨kind, h⟩ | ⟨size, msgId, isCompressed, h⟩
    · simp [h, errStatus_ne_zero]
    · simp [h]

end Sys2Proof.Machine
end

section
/-! PROOFS. The bytes of a word and of the record, and the statements of 20_memory.md: a word is its four byte
slices joined, the record as one vector is its ten bytes joined, and `MemRead` and `MemWrite` go between the bytes and
the word. -/

namespace Sys2Proof.Machine

/-! ### Bytes joined, and slices of them -/

/-- Joining one more byte is one more digit of a number in base 256. -/
theorem toNat_append_byte {w : Nat} (x : BitVec w) (b : Byte) : (x ++ b).toNat = x.toNat * 256 + b.toNat := by
  rw [BitVec.toNat_append, ← Nat.shiftLeft_add_eq_or_of_lt b.isLt, Nat.shiftLeft_eq]

/-- A slice of eight bits is told by its value: the number shifted down to the slice, modulo 256. -/
theorem extractLsb'_eq_byte {w start : Nat} {x : BitVec w} {b : Byte} (h : x.toNat / 2 ^ start % 256 = b.toNat) :
    x.extractLsb' start 8 = b := by
  apply BitVec.eq_of_toNat_eq
  rw [BitVec.extractLsb'_toNat, Nat.shiftRight_eq_div_pow]
  exact h

/-- The four byte slices of four bytes joined are those bytes. -/
theorem extractLsb'_append_four (b0 b1 b2 b3 : Byte) :
    (b0 ++ b1 ++ b2 ++ b3 : Word).extractLsb' 24 8 = b0 ∧ (b0 ++ b1 ++ b2 ++ b3 : Word).extractLsb' 16 8 = b1 ∧
      (b0 ++ b1 ++ b2 ++ b3 : Word).extractLsb' 8 8 = b2 ∧ (b0 ++ b1 ++ b2 ++ b3 : Word).extractLsb' 0 8 = b3 := by
  refine ⟨extractLsb'_eq_byte ?_, extractLsb'_eq_byte ?_, extractLsb'_eq_byte ?_, extractLsb'_eq_byte ?_⟩ <;>
    rw [toNat_append_four] <;> omega

/-- Four neighbouring byte slices joined, the most significant first, are one slice of 32 bits. -/
theorem append_four_slices {w : Nat} (x : BitVec w) (start : Nat) :
    (x.extractLsb' (start + 24) 8 ++ x.extractLsb' (start + 16) 8 ++ x.extractLsb' (start + 8) 8 ++
      x.extractLsb' start 8 : Word) = x.extractLsb' start 32 := by
  have join (s n : Nat) : x.extractLsb' (s + 8) n ++ x.extractLsb' s 8 = x.extractLsb' s (n + 8) :=
    BitVec.extractLsb'_append_extractLsb'_eq_extractLsb' rfl
  rw [join (start + 16) 8, join (start + 8) 16, join start 24]

/-- A word is its four byte slices joined (R43). -/
theorem word_eq_append_slices (v : Word) :
    (v.extractLsb' 24 8 ++ v.extractLsb' 16 8 ++ v.extractLsb' 8 8 ++ v.extractLsb' 0 8 : Word) = v :=
  (append_four_slices v 0).trans BitVec.extractLsb'_eq_self

/-! ### `MemRead` and `MemWrite` of a word -/

/-- At the offset of a 4-byte field `MemWrite` of a word is defined (R9, R48). -/
theorem memWrite_word (m : Memory) {o : Nat} (ho : o + 4 ≤ preambleLen) (v : Word) :
    memWrite m o 4 v.toNat = .ok (writeBytes m o 4 v.toNat) :=
  memWrite_defined m (.inr rfl) v.isLt ho

/-- The four bytes a word is stored as, the most significant first (R43). -/
theorem read_writeBytes_word (m : Memory) (o : Nat) (v : Word) :
    (writeBytes m o 4 v.toNat).read o = some (v.extractLsb' 24 8) ∧
      (writeBytes m o 4 v.toNat).read (o + 1) = some (v.extractLsb' 16 8) ∧
      (writeBytes m o 4 v.toNat).read (o + 2) = some (v.extractLsb' 8 8) ∧
      (writeBytes m o 4 v.toNat).read (o + 3) = some (v.extractLsb' 0 8) := by
  have read_at (i k : Nat) (hik : i + k = 3) :
      (writeBytes m o 4 v.toNat).read (o + i) = some (v.extractLsb' (8 * k) 8) := by
    rw [read_writeBytes, if_pos (by omega), show o + 4 - 1 - (o + i) = k by omega, byteOf_toNat]
  exact ⟨read_at 0 3 rfl, read_at 1 2 rfl, read_at 2 1 rfl, read_at 3 0 rfl⟩

theorem read_writeBytes_outside (m : Memory) {o n v a : Nat} (ha : a < o ∨ o + n ≤ a) :
    (writeBytes m o n v).read a = m.read a := by
  rw [read_writeBytes, if_neg (by omega)]

/-- `MemRead` after the store of a word returns the word (R43). -/
theorem memRead_writeBytes_word (m : Memory) (o : Nat) (v : Word) :
    memRead (writeBytes m o 4 v.toNat) o 4 = .ok v.toNat := by
  obtain ⟨h0, h1, h2, h3⟩ := read_writeBytes_word m o v
  rw [memRead_four_append h0 h1 h2 h3, word_eq_append_slices]

/-- Storing the word that four bytes already form changes no byte (R43). -/
theorem read_writeBytes_append {m : Memory} {o : Nat} {b0 b1 b2 b3 : Byte} (h0 : m.read o = some b0)
    (h1 : m.read (o + 1) = some b1) (h2 : m.read (o + 2) = some b2) (h3 : m.read (o + 3) = some b3) (a : Nat) :
    (writeBytes m o 4 (b0 ++ b1 ++ b2 ++ b3 : Word).toNat).read a = m.read a := by
  obtain ⟨w0, w1, w2, w3⟩ := read_writeBytes_word m o (b0 ++ b1 ++ b2 ++ b3)
  obtain ⟨e0, e1, e2, e3⟩ := extractLsb'_append_four b0 b1 b2 b3
  have ha : a = o ∨ a = o + 1 ∨ a = o + 2 ∨ a = o + 3 ∨ (a < o ∨ o + 4 ≤ a) := by omega
  rcases ha with rfl | rfl | rfl | rfl | houtside
  · rw [w0, e0, h0]
  · rw [w1, e1, h1]
  · rw [w2, e2, h2]
  · rw [w3, e3, h3]
  · exact read_writeBytes_outside m houtside

/-- Settles O19: both offsets leave room for four bytes in the record; then the one direction is
`memRead_writeBytes_word` and the other `read_writeBytes_append`. -/
theorem bigEndianFieldIsReadBack : Obligations.BigEndianFieldIsReadBack := by
  intro m o ho
  have hroom : o + 4 ≤ preambleLen := by
    rcases ho with rfl | rfl <;> decide
  constructor
  · intro v
    obtain ⟨h0, h1, h2, h3⟩ := read_writeBytes_word m o v
    exact ⟨_, memWrite_word m hroom v, h0, h1, h2, h3, memRead_writeBytes_word m o v,
      fun a ha => read_writeBytes_outside m ha⟩
  · intro b0 b1 b2 b3 h0 h1 h2 h3
    rw [← toNat_append_four]
    exact ⟨memRead_four_append h0 h1 h2 h3, _, memWrite_word m hroom _, read_writeBytes_append h0 h1 h2 h3⟩

/-! ### The record as one vector -/

theorem toList_record (p : Record) :
    p.toList = [p[0], p[1], p[2], p[3], p[4], p[5], p[6], p[7], p[8], p[9]] := by
  apply List.ext_getElem
  · simp
  · intro k hk _
    rw [Vector.length_toList] at hk
    rw [Vector.getElem_toList]
    interval_cases k <;> rfl

/-- The vector read as a number is the record read as one big-endian number (R44). -/
theorem recordBits_toNat (p : Record) :
    (recordBits p).toNat = p.toList.foldl (fun acc b => acc * 256 + b.toNat) 0 := by
  rw [toList_record]
  simp [recordBits, toNat_append_byte]

/-- Byte `k` of the record is the slice `rec[79 - 8k : 72 - 8k]`: digit `9 - k` of the number in base 256 (R44). -/
theorem recordBits_slice (p : Record) {k : Nat} (hk : k < 10) :
    (recordBits p).extractLsb' (72 - 8 * k) 8 = p[k] := by
  apply extractLsb'_eq_byte
  rw [recordBits_toNat, toList_record]
  simp only [List.foldl_cons, List.foldl_nil]
  interval_cases k <;> omega

/-- The slice `rec[71:40]` is `size` (R44). -/
theorem recordBits_size (p : Record) : (recordBits p).extractLsb' 40 32 = recordSize p := by
  rw [← append_four_slices]
  unfold recordSize
  rw [← recordBits_slice p (k := 1) (by decide), ← recordBits_slice p (k := 2) (by decide),
    ← recordBits_slice p (k := 3) (by decide), ← recordBits_slice p (k := 4) (by decide)]

/-- The slice `rec[39:8]` is `msg_id` (R44). -/
theorem recordBits_msgId (p : Record) : (recordBits p).extractLsb' 8 32 = recordMsgId p := by
  rw [← append_four_slices]
  unfold recordMsgId
  rw [← recordBits_slice p (k := 5) (by decide), ← recordBits_slice p (k := 6) (by decide),
    ← recordBits_slice p (k := 7) (by decide), ← recordBits_slice p (k := 8) (by decide)]

/-- Settles O20: the two 1-byte fields are byte slices of the vector, the two 4-byte fields four of them joined, and
joining bytes is reading them as one big-endian number. -/
theorem recordAsOneVector : Obligations.RecordAsOneVector := by
  intro p
  exact ⟨fun k hk => recordBits_slice p hk, recordBits_slice p (k := 0) (by decide), recordBits_size p,
    recordBits_msgId p, recordBits_slice p (k := 9) (by decide), recordBits_toNat p⟩

end Sys2Proof.Machine
end

section
/-! PROOFS. Validity as a condition on three bytes, the parts of the record `ENC` builds, what a new flag byte leaves
unchanged, and the statements of 30_encoding.md: on the low byte `SOF` is XOR with 61 and the sum of two fields is the
sum of their last bytes, so only the bytes 0, 4 and 8 of a record decide whether it is valid. -/

namespace Sys2Proof.Machine

/-! ### `SOF` of a record's fields -/

/-- The two constants of R90 are one, 194 XOR 255 = 61. -/
theorem sof_eq_xor (v : Word) : sof v = 61#8 ^^^ v.truncate 8 := by
  unfold sof magic
  rw [BitVec.xor_comm (v.truncate 8), ← BitVec.xor_assoc]
  rfl

/-- `SOF` of a wrapping sum needs the low bytes of the summands only. -/
theorem sof_add (v w : Word) : sof (v + w) = 61#8 ^^^ (v.truncate 8 + w.truncate 8) := by
  rw [sof_eq_xor, BitVec.truncate_eq_setWidth, BitVec.setWidth_add _ _ (by decide)]

theorem truncate_append_four (b0 b1 b2 b3 : Byte) : (b0 ++ b1 ++ b2 ++ b3 : Word).truncate 8 = b3 := by
  rw [BitVec.truncate_eq_setWidth, BitVec.setWidth_eq_extractLsb' (by decide)]
  obtain ⟨-, -, -, h⟩ := extractLsb'_append_four b0 b1 b2 b3
  exact h

theorem sof_recordSum (p : Record) : sof (recordSize p + recordMsgId p) = 61#8 ^^^ (p[4] + p[8]) := by
  rw [sof_add, recordSize, recordMsgId, truncate_append_four, truncate_append_four]

/-- Validity as a condition on the bytes 0, 4 and 8 (R70). -/
theorem validRecord_iff_bytes (p : Record) : validRecord p = true ↔ p[0] = 61#8 ^^^ (p[4] + p[8]) := by
  rw [validRecord_iff, sof_recordSum]

theorem validRecord_congr {p q : Record} (h0 : p[0] = q[0]) (h4 : p[4] = q[4]) (h8 : p[8] = q[8]) :
    validRecord p = validRecord q := by
  rw [Bool.eq_iff_iff, validRecord_iff_bytes, validRecord_iff_bytes, h0, h4, h8]

/-! ### The fields of a record through `MemRead` -/

theorem read_record (p : Record) {k : Nat} (hk : k < 10) : (Memory.ofBytes 0 p.toList).read k = some p[k] := by
  rw [read_ofBytes, if_pos (Nat.zero_le k)]
  simp [hk]

theorem memRead_recordSize (p : Record) :
    memRead (Memory.ofBytes 0 p.toList) 1 4 = .ok (recordSize p).toNat :=
  memRead_four_append (read_record p (by decide)) (read_record p (by decide)) (read_record p (by decide))
    (read_record p (by decide))

theorem memRead_recordMsgId (p : Record) :
    memRead (Memory.ofBytes 0 p.toList) 5 4 = .ok (recordMsgId p).toNat :=
  memRead_four_append (read_record p (by decide)) (read_record p (by decide)) (read_record p (by decide))
    (read_record p (by decide))

/-- The sum mod 2^32 of two fields read as numbers is the wrapping sum of the words (R92). -/
theorem ofNat_toNat_add_toNat_mod (v w : Word) : BitVec.ofNat 32 ((v.toNat + w.toNat) % 2 ^ 32) = v + w := by
  rw [← BitVec.toNat_add, BitVec.ofNat_toNat, BitVec.setWidth_eq]

/-! ### The record `ENC` builds -/

@[simp] theorem recordSize_encRecord (size msgId : Word) (isCompressed : Bool) :
    recordSize (encRecord size msgId isCompressed) = size :=
  word_eq_append_slices size

@[simp] theorem recordMsgId_encRecord (size msgId : Word) (isCompressed : Bool) :
    recordMsgId (encRecord size msgId isCompressed) = msgId :=
  word_eq_append_slices msgId

theorem encRecord_flag (size msgId : Word) (isCompressed : Bool) :
    (encRecord size msgId isCompressed)[9] = flagByte isCompressed := rfl

@[simp] theorem validRecord_encRecord (size msgId : Word) (isCompressed : Bool) :
    validRecord (encRecord size msgId isCompressed) = true := by
  rw [validRecord_iff, recordSize_encRecord, recordMsgId_encRecord]
  rfl

/-- `ENC` gives its record for every length whose successor fits in 32 bits (R101). -/
theorem encAnswer_of_le {bodyLen : Nat} (hlen : bodyLen ≤ 4294967294) (msgId : Word) (isCompressed : Bool) :
    encAnswer msgId bodyLen isCompressed =
      .encOk (encRecord (BitVec.ofNat 32 (bodyLen + 1)) msgId isCompressed) := by
  have hfits : ¬ encSize bodyLen > maxSize := by
    unfold encSize maxSize
    omega
  exact if_neg hfits

/-! ### A new flag byte -/

@[simp] theorem recordSize_set_flag (p : Record) (flag : Byte) : recordSize (p.set 9 flag) = recordSize p := by
  simp [recordSize]

@[simp] theorem recordMsgId_set_flag (p : Record) (flag : Byte) : recordMsgId (p.set 9 flag) = recordMsgId p := by
  simp [recordMsgId]

/-- The checksum does not cover the flag byte (R64). -/
@[simp] theorem validRecord_set_flag (p : Record) (flag : Byte) : validRecord (p.set 9 flag) = validRecord p :=
  validRecord_congr (by simp) (by simp) (by simp)

theorem flagBool_eq_decide (flag : Byte) : flagBool flag = decide (flag ≠ 0#8) :=
  decide_not.symm

/-! ### What `DEC` answers from length 10 on -/

theorem decAnswer_of_valid {bufLen : Nat} {p : Record} (hlen : 10 ≤ bufLen) (hvalid : validRecord p = true) :
    decAnswer bufLen p = .decOk (recordSize p) (recordMsgId p) (flagBool p[9]) := by
  have hlong : ¬ bufLen < preambleLen := Nat.not_lt.2 hlen
  rw [decAnswer, if_neg hlong, if_pos hvalid]

theorem decAnswer_of_invalid {bufLen : Nat} {p : Record} (hlen : 10 ≤ bufLen) (hinvalid : validRecord p = false) :
    decAnswer bufLen p = .err .frameError := by
  have hlong : ¬ bufLen < preambleLen := Nat.not_lt.2 hlen
  rw [decAnswer, if_neg hlong, if_neg (Bool.eq_false_iff.1 hinvalid)]

/-! ### The operation select -/

theorem bitToBool_eq_decide (b : BitVec 1) : bitToBool b = decide (b = 1#1) := rfl

/-! ### The statements of 30_encoding.md -/

/-- Settles O21: `MemRead` reads the two fields, whose sum mod 2^32 is the sum of validity; the rest is
`validRecord_iff_bytes`. -/
theorem validityIsAConditionOnThreeBytes : Obligations.ValidityIsAConditionOnThreeBytes := by
  constructor
  · intro p
    refine ⟨_, _, memRead_recordSize p, memRead_recordMsgId p, ?_, validRecord_iff_bytes p⟩
    rw [ofNat_toNat_add_toNat_mod]
    exact validRecord_iff p
  · intro p q
    exact validRecord_congr

/-- Settles O23: the answer is `FrameError`, whose ports are empty; and the record `ENC` builds of the two fields,
with the flag byte put in, is a valid record with the three field values. -/
theorem invalidRecordGivesFrameErrorAndNothingElse : Obligations.InvalidRecordGivesFrameErrorAndNothingElse := by
  constructor
  · intro bufLen buf s hlen hinvalid
    refine ⟨.err .frameError, ?_, rfl, encPre_err _, decSize_err _, decMsgId_err _, decIsCompressed_err _⟩
    rw [exec_eq, answer_dec, decAnswer_of_invalid hlen hinvalid]
  · intro size msgId flag
    refine ⟨(encRecord size msgId false).set 9 flag, ?_, ?_, ?_, Vector.getElem_set_self _⟩
    · rw [validRecord_set_flag, validRecord_encRecord]
    · rw [recordSize_set_flag, recordSize_encRecord]
    · rw [recordMsgId_set_flag, recordMsgId_encRecord]

/-- Settles O24: byte 9 of the record of `ENC` is `flagByte`; and a new byte 9 changes neither the validity nor the two
fields that `DEC` answers with. -/
theorem flagByteIsNonzeroForTrue : Obligations.FlagByteIsNonzeroForTrue := by
  constructor
  · intro msgId bodyLen isCompressed s hlen
    refine ⟨encRecord (BitVec.ofNat 32 (bodyLen + 1)) msgId isCompressed, ?_, encRecord_flag _ _ _⟩
    rw [exec_eq, answer_enc, encAnswer_of_le hlen]
  · intro bufLen p flag s hlen hvalid
    have hset : validRecord (p.set 9 flag) = true := (validRecord_set_flag p flag).trans hvalid
    rw [exec_eq, answer_dec, decAnswer_of_valid hlen hset, recordSize_set_flag, recordMsgId_set_flag,
      Vector.getElem_set_self, flagBool_eq_decide]

/-- Settles O28: the equation of `decode` for each of the two values, and there is no third (`opSelect_cases`). -/
theorem operationSelectNamesTheOperation : Obligations.OperationSelectNamesTheOperation := by
  refine ⟨?_, fun _ hdec => decode_of_select_dec hdec, fun p => opSelect_cases p.reqOp⟩
  intro p henc
  rw [decode_of_select_enc henc, bitToBool_eq_decide]

end Sys2Proof.Machine
end

section
/-! PROOFS. The statements of 40_sof.md: `SOF` read as a number, and its dependence on the residue of the input modulo
256 alone, which every reduction of the input to 8 bits or more keeps. -/

namespace Sys2Proof.Machine

/-! ### `SOF` of a natural number -/

/-- The low byte of a 32-bit input is the number's own low byte: nothing above bit 7 is used (R93). -/
theorem sof_ofNat (n : Nat) : sof (BitVec.ofNat 32 n) = 61#8 ^^^ BitVec.ofNat 8 n := by
  rw [sof_eq_xor, BitVec.truncate_eq_setWidth, BitVec.setWidth_ofNat_of_le (by decide)]

theorem sof_ofNat_congr {v w : Nat} (h : v % 256 = w % 256) :
    sof (BitVec.ofNat 32 v) = sof (BitVec.ofNat 32 w) := by
  have hbyte : BitVec.ofNat 8 v = BitVec.ofNat 8 w := BitVec.eq_of_toNat_eq h
  rw [sof_ofNat, sof_ofNat, hbyte]

/-- Reducing a number to 8 bits or more keeps its low byte: 256 divides the modulus. -/
theorem mod_two_pow_mod_256 (n : Nat) {w : Nat} (hw : 8 ≤ w) : n % 2 ^ w % 256 = n % 256 :=
  Nat.mod_mod_of_dvd n (Nat.pow_dvd_pow 2 hw)

/-! ### The statements of 40_sof.md -/

/-- Settles O3: each clause is `sof_ofNat_congr` for two numbers with one residue modulo 256. -/
theorem sofDependsOnLowByteOnly : Obligations.SofDependsOnLowByteOnly := by
  refine ⟨fun _ _ h => sof_ofNat_congr h, ?_, ?_, ?_⟩
  · intro v
    exact sof_ofNat_congr (Nat.mod_mod v 256).symm
  · intro v k
    exact sof_ofNat_congr (Nat.add_mul_mod_self_left v 256 k)
  · intro a b w hw
    exact sof_ofNat_congr (mod_two_pow_mod_256 (a + b) hw)

/-- Settles O1: XOR of bytes is XOR of their numbers, and the number of the low byte is the residue modulo 256. -/
theorem sofIsMagicXorComplementOfLowByte : Obligations.SofIsMagicXorComplementOfLowByte := by
  intro v
  have hlow : (v.truncate 8 : Byte).toNat = v.toNat % 256 := BitVec.toNat_setWidth 8 v
  rw [sof, BitVec.toNat_xor, BitVec.toNat_xor, hlow]
  rfl

end Sys2Proof.Machine
end

section
/-! PROOFS. The statements of 41_encode.md: `ENC` answers an error from the length 2^32 - 1 on and the record of R100
below it, and what a port width says of the lengths that can be presented. -/

namespace Sys2Proof.Machine

/-! ### What `ENC` answers, by the length -/

/-- `ENC` gives no record from the first length on whose successor does not fit in 32 bits (R101). -/
theorem encAnswer_of_ge {bodyLen : Nat} (hlen : 4294967295 ≤ bodyLen) (msgId : Word) (isCompressed : Bool) :
    encAnswer msgId bodyLen isCompressed = .err .sizeOverflow := by
  have hover : encSize bodyLen > maxSize := Nat.lt_succ_of_le hlen
  exact if_pos hover

theorem exec_enc_eq_iff {msgId : Word} {bodyLen : Nat} {isCompressed : Bool} {s : State} {r : Response} :
    exec (.enc msgId bodyLen isCompressed) s = .next (s.respond r) ↔ encAnswer msgId bodyLen isCompressed = r := by
  rw [exec_eq, answer_enc, next_respond_inj]

theorem exec_enc_overflows_iff {msgId : Word} {bodyLen : Nat} {isCompressed : Bool} {s : State} :
    exec (.enc msgId bodyLen isCompressed) s = .next (s.respond (.err .sizeOverflow)) ↔ 4294967295 ≤ bodyLen := by
  rw [exec_enc_eq_iff]
  constructor
  · intro herr
    by_contra hsmall
    rw [encAnswer_of_le (by omega)] at herr
    cases herr
  · intro hlen
    exact encAnswer_of_ge hlen msgId isCompressed

/-- The size field of the record of `ENC` is the successor of the length itself, not wrapped (R101). -/
theorem exec_enc_gives_unwrapped_size {bodyLen : Nat} (hlen : bodyLen ≤ 4294967294) (msgId : Word)
    (isCompressed : Bool) (s : State) :
    ∃ pre, (recordSize pre).toNat = bodyLen + 1 ∧
      exec (.enc msgId bodyLen isCompressed) s = .next (s.respond (.encOk pre)) := by
  refine ⟨encRecord (BitVec.ofNat 32 (bodyLen + 1)) msgId isCompressed, ?_,
    exec_enc_eq_iff.2 (encAnswer_of_le hlen msgId isCompressed)⟩
  rw [recordSize_encRecord, BitVec.toNat_ofNat]
  exact Nat.mod_eq_of_lt (by omega)

/-! ### The lengths that fit the port -/

theorem wellFormed_enc_iff {c : Params} {msgId : Word} {bodyLen : Nat} {isCompressed : Bool} :
    (Instr.enc msgId bodyLen isCompressed).wellFormed c = true ↔ bodyLen < 2 ^ c.bodyLenW :=
  decide_eq_true_iff

/-! ### The statements of 41_encode.md -/

/-- Settles O6: the answer of `ENC` on each side of the bound of R101; below it, the record is `encRecord`, whose ten
bytes are those of R100. -/
theorem encAnswersWithItsRecord : Obligations.EncAnswersWithItsRecord := by
  intro msgId bodyLen isCompressed s
  rw [exec_enc_eq_iff]
  by_cases hover : bodyLen + 1 > 4294967295
  · rw [if_pos hover, encAnswer_of_ge (by omega)]
  · rw [if_neg hover, encAnswer_of_le (by omega)]
    rfl

/-- Settles O7: `exec_enc_overflows_iff` and `exec_enc_gives_unwrapped_size` say where `ENC` fails and what it gives
elsewhere; the clauses on a width set its power of two against the bound. -/
theorem encOverflowsExactlyWhenSizeDoesNotFit : Obligations.EncOverflowsExactlyWhenSizeDoesNotFit := by
  intro c msgId bodyLen isCompressed s hfits
  rw [wellFormed_enc_iff] at hfits
  refine ⟨exec_enc_overflows_iff, fun hlen => exec_enc_gives_unwrapped_size hlen msgId isCompressed s, ?_, ?_, ?_⟩
  · intro hwidth
    have hpow : 2 ^ c.bodyLenW ≤ 2 ^ 31 := Nat.pow_le_pow_right (by decide) hwidth
    obtain ⟨pre, -, hexec⟩ :=
      exec_enc_gives_unwrapped_size (bodyLen := bodyLen) (by omega) msgId isCompressed s
    exact ⟨pre, hexec⟩
  · intro hwidth
    rw [hwidth] at hfits
    rw [exec_enc_overflows_iff]
    omega
  · intro hwidth
    have hpow : 2 ^ 32 ≤ 2 ^ c.bodyLenW := Nat.pow_le_pow_right (by decide) hwidth
    rw [wellFormed_enc_iff]
    omega

end Sys2Proof.Machine
end

section
/-! PROOFS. The statements of 42_decode.md: `DEC` answers `ShortBuffer` below the length 10; from there on its answer
is a function of the first ten bytes, and the checksum alone decides between `FrameError` and the three fields. -/

namespace Sys2Proof.Machine

/-! ### The fields as numbers -/

/-- `size` is the big-endian sum of the bytes 1 to 4 (R113). -/
theorem recordSize_toNat (p : Record) :
    (recordSize p).toNat = p[1].toNat * 2 ^ 24 + p[2].toNat * 2 ^ 16 + p[3].toNat * 2 ^ 8 + p[4].toNat :=
  toNat_append_four _ _ _ _

/-- `msg_id` is the big-endian sum of the bytes 5 to 8 (R113). -/
theorem recordMsgId_toNat (p : Record) :
    (recordMsgId p).toNat = p[5].toNat * 2 ^ 24 + p[6].toNat * 2 ^ 16 + p[7].toNat * 2 ^ 8 + p[8].toNat :=
  toNat_append_four _ _ _ _

/-! ### What `DEC` answers, by the length and by the checksum -/

/-- Below length 10 nothing is parsed, whatever bytes there are to read (R111). -/
theorem decodePreamble_of_lt {len : Nat} (hlen : len < 10) (buf : Memory) :
    decodePreamble len buf = .ok (.err .shortBuffer) :=
  if_pos hlen

theorem decAnswer_of_lt {bufLen : Nat} (hlen : bufLen < 10) (p : Record) :
    decAnswer bufLen p = .err .shortBuffer :=
  if_pos hlen

/-- From length 10 on the length has no influence (R112). -/
theorem decAnswer_of_ten_le {bufLen : Nat} (hlen : 10 ≤ bufLen) (p : Record) :
    decAnswer bufLen p = decAnswer 10 p := by
  cases hvalid : validRecord p with
  | true => rw [decAnswer_of_valid hlen hvalid, decAnswer_of_valid le_rfl hvalid]
  | false => rw [decAnswer_of_invalid hlen hvalid, decAnswer_of_invalid le_rfl hvalid]

theorem decAnswer_eq_shortBuffer_iff {bufLen : Nat} {p : Record} :
    decAnswer bufLen p = .err .shortBuffer ↔ bufLen < 10 := by
  refine ⟨fun hshort => ?_, fun hlen => decAnswer_of_lt hlen p⟩
  by_contra hlong
  have hlen : 10 ≤ bufLen := Nat.le_of_not_lt hlong
  cases hvalid : validRecord p with
  | true => simp [decAnswer_of_valid hlen hvalid] at hshort
  | false => simp [decAnswer_of_invalid hlen hvalid] at hshort

/-- The checksum is the only check from length 10 on (R114). -/
theorem decAnswer_eq_frameError_iff {bufLen : Nat} {p : Record} (hlen : 10 ≤ bufLen) :
    decAnswer bufLen p = .err .frameError ↔ ¬ validRecord p = true := by
  cases hvalid : validRecord p with
  | true => simp [decAnswer_of_valid hlen hvalid]
  | false => simp [decAnswer_of_invalid hlen hvalid]

/-- A lane at or above the length has no influence: below length 10 no lane has any, and from there on every lane is
below the length (R112). -/
theorem decAnswer_congr {bufLen : Nat} {p q : Record} (h : ∀ (k : Nat) (hk : k < 10), k < bufLen → p[k] = q[k]) :
    decAnswer bufLen p = decAnswer bufLen q := by
  by_cases hlen : bufLen < 10
  · rw [decAnswer_of_lt hlen, decAnswer_of_lt hlen]
  · have hpq : p = q := Vector.ext fun k hk => h k hk (by omega)
    rw [hpq]

theorem exec_dec_eq_iff {bufLen : Nat} {p : Record} {s : State} {r : Response} :
    exec (.dec bufLen p) s = .next (s.respond r) ↔ decAnswer bufLen p = r := by
  rw [exec_eq, answer_dec, next_respond_inj]

theorem exec_dec_congr {n n' : Nat} {p q : Record} (h : decAnswer n p = decAnswer n' q) (s : State) :
    exec (.dec n p) s = exec (.dec n' q) s := by
  rw [exec_dec_eq_iff.2 h, exec_eq, answer_dec]

/-! ### `DEC` of a byte sequence -/

/-- `DEC` of a record with any bytes after it is `DEC` of the record at the ports (R112). -/
theorem decodeBuffer_append (p : Record) (t : List Byte) :
    decodeBuffer (p.toList ++ t) = .ok (decAnswer 10 p) := by
  refine decodePreamble_of_record (p := p) ?_ fun k hk => ?_
  · simp [preambleLen]
  · rw [read_ofBytes, if_pos (Nat.zero_le k), Nat.sub_zero, List.getElem?_append_left (by simpa using hk)]
    simp [hk]

/-- Ten bytes are a record. -/
theorem exists_record_of_length {a : List Byte} (ha : a.length = 10) : ∃ p : Record, p.toList = a :=
  ⟨⟨a.toArray, ha⟩, rfl⟩

/-! ### The statements of 42_decode.md -/

/-- Settles O10: short buffers by `decAnswer_of_lt`; from length 10 on the two sums are the fields of the record, so the
comparison of R110 is the record's validity. -/
theorem decAnswersByLengthThenChecksum : Obligations.DecAnswersByLengthThenChecksum := by
  intro bufLen buf s
  rw [exec_dec_eq_iff]
  by_cases hshort : bufLen < 10
  · rw [if_pos hshort, decAnswer_of_lt hshort]
  · have hlen : 10 ≤ bufLen := Nat.le_of_not_lt hshort
    simp only [if_neg hshort, ← recordSize_toNat, ← recordMsgId_toNat, ofNat_toNat_add_toNat_mod,
      BitVec.ofNat_toNat, BitVec.setWidth_eq]
    by_cases hvalid : validRecord buf = true
    · have hsum : sof (recordSize buf + recordMsgId buf) = buf[0] := ((validRecord_iff buf).1 hvalid).symm
      rw [if_neg (not_not.2 hsum), decAnswer_of_valid hlen hvalid]
      rfl
    · have hsum : sof (recordSize buf + recordMsgId buf) ≠ buf[0] :=
        fun h => hvalid ((validRecord_iff buf).2 h.symm)
      rw [if_pos hsum, (decAnswer_eq_frameError_iff hlen).2 hvalid]

/-- Settles O12: at the ports each clause is an equation between two answers; a sequence of ten bytes is a record, and
`DEC` of it with any bytes after it is one answer (`decodeBuffer_append`). -/
theorem decDependsOnTheFirstTenBytes : Obligations.DecDependsOnTheFirstTenBytes := by
  refine ⟨?_, ?_, ?_, ?_⟩
  · intro n n' buf buf' s hn hn'
    exact exec_dec_congr ((decAnswer_of_lt hn buf).trans (decAnswer_of_lt hn' buf').symm) s
  · intro n n' buf s hn hn'
    exact exec_dec_congr ((decAnswer_of_ten_le hn buf).trans (decAnswer_of_ten_le hn' buf).symm) s
  · intro n buf buf' s hagree
    exact exec_dec_congr (decAnswer_congr hagree) s
  · intro a t u ha
    obtain ⟨p, rfl⟩ := exists_record_of_length ha
    have halone : decodeBuffer p.toList = .ok (decAnswer 10 p) := by
      simpa using decodeBuffer_append p []
    rw [halone, decodeBuffer_append, decodeBuffer_append]
    exact ⟨rfl, rfl⟩

/-- Settles O13: the answer is `FrameError` exactly for an invalid record, and validity is either form of the
comparison. -/
theorem decComparesTheChecksum : Obligations.DecComparesTheChecksum := by
  intro bufLen buf s hlen
  refine ⟨?_, ?_, fun hsum => ?_⟩
  · rw [exec_dec_eq_iff, decAnswer_eq_frameError_iff hlen, validRecord_iff]
  · rw [exec_dec_eq_iff, decAnswer_eq_frameError_iff hlen, validRecord_iff_bytes]
  · exact ⟨_, _, _, exec_dec_eq_iff.2 (decAnswer_of_valid hlen ((validRecord_iff buf).2 hsum))⟩

/-- Settles O14: the answer of `DEC` for a valid record (`decAnswer_of_valid`). -/
theorem decReturnsTheFieldsOfEveryValidRecord : Obligations.DecReturnsTheFieldsOfEveryValidRecord := by
  intro bufLen buf s hlen hvalid
  exact exec_dec_eq_iff.2 (decAnswer_of_valid hlen hvalid)

/-- Settles O11: `decAnswer_eq_shortBuffer_iff` at the ports, and `decodePreamble_of_lt` over every byte space. -/
theorem decIsShortExactlyBelowTen : Obligations.DecIsShortExactlyBelowTen := by
  refine ⟨?_, fun _ m hlen => decodePreamble_of_lt hlen m, ?_⟩
  · intro bufLen buf s
    rw [exec_dec_eq_iff, decAnswer_eq_shortBuffer_iff]
  · intro buf s
    rw [ne_eq, exec_dec_eq_iff, decAnswer_eq_shortBuffer_iff]
    decide

end Sys2Proof.Machine
end

section
/-! PROOFS. The statements of 60_exceptions.md: the status code tells the error kind and each kind has one cause; an
error gives no result port a value; and a run answers its requests one by one, so that no outcome reaches the next. -/

namespace Sys2Proof.Machine

/-! ### Codes and causes -/

/-- The code of an error kind belongs to that error alone: success has the code 0, and the kinds have different codes
(R131). -/
theorem status_eq_errStatus_iff {r : Response} {k : ErrKind} : r.status = k.status ↔ r = .err k := by
  refine ⟨fun h => ?_, fun h => h ▸ status_err k⟩
  cases r with
  | encOk pre => exact absurd h.symm (errStatus_ne_zero k)
  | decOk size msgId isCompressed => exact absurd h.symm (errStatus_ne_zero k)
  | err kind =>
    have hkind : kind = k := by
      revert h
      cases kind <;> cases k <;> decide
    rw [hkind]

/-- `ENC` fails exactly when `body_len + 1` does not fit in 32 bits (R131). -/
theorem encAnswer_status (msgId : Word) (bodyLen : Nat) (isCompressed : Bool) :
    (encAnswer msgId bodyLen isCompressed).status = if bodyLen + 1 > 4294967295 then 3#2 else 0#2 := by
  by_cases hover : bodyLen + 1 > 4294967295
  · rw [if_pos hover, encAnswer_of_ge (by omega)]
    rfl
  · rw [if_neg hover, encAnswer_of_le (by omega)]
    rfl

/-- `DEC` checks the length, then the checksum (R131, R133). -/
theorem decAnswer_status (bufLen : Nat) (p : Record) :
    (decAnswer bufLen p).status = if bufLen < 10 then 1#2
      else if p[0] ≠ sof (recordSize p + recordMsgId p) then 2#2 else 0#2 := by
  by_cases hshort : bufLen < 10
  · rw [if_pos hshort, decAnswer_of_lt hshort]
    rfl
  · have hlen : 10 ≤ bufLen := Nat.le_of_not_lt hshort
    rw [if_neg hshort]
    by_cases hsum : p[0] = sof (recordSize p + recordMsgId p)
    · rw [if_neg (not_not.2 hsum), decAnswer_of_valid hlen ((validRecord_iff p).2 hsum)]
      rfl
    · rw [if_pos hsum, (decAnswer_eq_frameError_iff hlen).2 (mt (validRecord_iff p).1 hsum)]
      rfl

/-! ### Runs -/

/-- A run goes on from the state its first step gives. -/
theorem run_succ_of_step {M : Host.Core} {s t : M.State} (h : M.step s = .next t) (k : Nat) :
    M.run (k + 1) s = M.run k t := by
  rw [Host.Core.run, h]

/-- Without a request a step changes nothing (R29). -/
theorem step_idle {s : State} (h : s.requests = []) : step s = .next s := by
  simp only [step, fetch_none h]

/-- A run of `k` steps gives the first `k` requests their answers, in order: each a function of its own request,
whatever was answered before it (R137). -/
theorem run_eq (k : Nat) (s : State) :
    Sys2Proof.core.run k s = .next
      { requests := s.requests.drop k
        responses := s.responses ++ (s.requests.take k).map fun p => answer (decode p) } := by
  induction k generalizing s with
  | zero => simp [Host.Core.run]
  | succ k ih =>
    cases h : s.requests with
    | nil =>
      rw [run_succ_of_step (M := Sys2Proof.core) (step_idle h), ih]
      simp [h]
    | cons p rest =>
      rw [run_succ_of_step (M := Sys2Proof.core) (step_eq h), ih]
      simp

/-! ### The statements of 60_exceptions.md -/

/-- Settles O35: each operation gives its answer, whose status is `encAnswer_status` or `decAnswer_status`; which error
a code stands for is `status_eq_errStatus_iff` for that kind. -/
theorem statusCodeTellsTheCause : Obligations.StatusCodeTellsTheCause := by
  constructor
  · intro msgId bodyLen isCompressed s
    exact ⟨encAnswer msgId bodyLen isCompressed, exec_enc_eq_iff.2 rfl, encAnswer_status msgId bodyLen isCompressed,
      status_eq_errStatus_iff (k := .sizeOverflow)⟩
  · intro bufLen buf s
    exact ⟨decAnswer bufLen buf, exec_dec_eq_iff.2 rfl, decAnswer_status bufLen buf,
      status_eq_errStatus_iff (k := .shortBuffer), status_eq_errStatus_iff (k := .frameError)⟩

/-- Settles O37: the run over the two requests gives their two answers, and the step that never saw `p` gives the same
answer to `q`. -/
theorem outcomeLeavesNoTrace : Obligations.OutcomeLeavesNoTrace := by
  intro p q rest given
  exact ⟨answer (decode p), answer (decode q), run_eq 2 _, step_eq rfl⟩

/-- Settles O36: the four ports of an error response are empty, so each pin falls back to its free level. -/
theorem errorCarriesNoResult : Obligations.ErrorCarriesNoResult := by
  intro k free
  refine ⟨encPre_err k, decSize_err k, decMsgId_err k, decIsCompressed_err k, ?_⟩
  simp only [Response.pins, encPre_err, decSize_err, decMsgId_err, decIsCompressed_err, Option.getD_none]

end Sys2Proof.Machine
end

section
/-! PROOFS. `ENC` and `DEC` as inverses: the answer of `DEC` as an equivalence, the record of `ENC` told by its fields,
and the records of `ENC` as exactly the canonical ones. -/

namespace Sys2Proof.Machine

/-! ### When an operation succeeds -/

theorem decAnswer_eq_decOk_iff {bufLen : Nat} {p : Record} {size msgId : Word} {isCompressed : Bool} :
    decAnswer bufLen p = .decOk size msgId isCompressed ↔ 10 ≤ bufLen ∧ validRecord p = true ∧
      recordSize p = size ∧ recordMsgId p = msgId ∧ flagBool p[9] = isCompressed := by
  by_cases hshort : bufLen < 10
  · simp [decAnswer_of_lt hshort, hshort]
  · have hlen : 10 ≤ bufLen := Nat.le_of_not_lt hshort
    cases hvalid : validRecord p with
    | true => simp [decAnswer_of_valid hlen hvalid, hlen]
    | false => simp [decAnswer_of_invalid hlen hvalid]

theorem encAnswer_eq_encOk_iff {msgId : Word} {bodyLen : Nat} {isCompressed : Bool} {pre : Record} :
    encAnswer msgId bodyLen isCompressed = .encOk pre ↔
      bodyLen ≤ 4294967294 ∧ encRecord (BitVec.ofNat 32 (bodyLen + 1)) msgId isCompressed = pre := by
  by_cases hlen : bodyLen ≤ 4294967294
  · simp [encAnswer_of_le hlen, hlen]
  · simp [encAnswer_of_ge (Nat.lt_of_not_le hlen), hlen]

/-- The size of an accepted length is the length's successor, unwrapped (R101). -/
theorem toNat_ofNat_succ {bodyLen : Nat} (hlen : bodyLen ≤ 4294967294) :
    (BitVec.ofNat 32 (bodyLen + 1) : Word).toNat = bodyLen + 1 := by
  rw [BitVec.toNat_ofNat]
  exact Nat.mod_eq_of_lt (by omega)

/-- A size of at least 1 is the successor of the length one below it. -/
theorem ofNat_pred_succ {size : Word} (hsize : 1 ≤ size.toNat) : BitVec.ofNat 32 (size.toNat - 1 + 1) = size := by
  rw [Nat.sub_add_cancel hsize, BitVec.ofNat_toNat, BitVec.setWidth_eq]

theorem ofNat_succ_ne_zero {bodyLen : Nat} (hlen : bodyLen ≤ 4294967294) :
    (BitVec.ofNat 32 (bodyLen + 1) : Word) ≠ 0#32 := by
  intro hzero
  have hnat := toNat_ofNat_succ hlen
  simp [hzero] at hnat

/-- `ENC` of the length one below a size gives the record of that size (R118). -/
theorem encAnswer_of_size {size : Word} (hsize : 1 ≤ size.toNat) (msgId : Word) (isCompressed : Bool) :
    encAnswer msgId (size.toNat - 1) isCompressed = .encOk (encRecord size msgId isCompressed) := by
  have hfits : size.toNat - 1 ≤ 4294967294 := by
    have := size.isLt
    omega
  rw [encAnswer_of_le hfits, ofNat_pred_succ hsize]

/-! ### A record told by its fields -/

/-- The flag changes byte 9 of the record of `ENC` and nothing else (R105). -/
theorem encRecord_set_flag (size msgId : Word) (c c' : Bool) :
    (encRecord size msgId c).set 9 (flagByte c') = encRecord size msgId c' := rfl

/-- The four byte slices of the field `size` are the bytes 1 to 4 (R62). -/
theorem recordSize_slices (p : Record) :
    (recordSize p).extractLsb' 24 8 = p[1] ∧ (recordSize p).extractLsb' 16 8 = p[2] ∧
      (recordSize p).extractLsb' 8 8 = p[3] ∧ (recordSize p).extractLsb' 0 8 = p[4] :=
  extractLsb'_append_four _ _ _ _

/-- The four byte slices of the field `msg_id` are the bytes 5 to 8 (R63). -/
theorem recordMsgId_slices (p : Record) :
    (recordMsgId p).extractLsb' 24 8 = p[5] ∧ (recordMsgId p).extractLsb' 16 8 = p[6] ∧
      (recordMsgId p).extractLsb' 8 8 = p[7] ∧ (recordMsgId p).extractLsb' 0 8 = p[8] :=
  extractLsb'_append_four _ _ _ _

/-- A valid record is the record `ENC` builds of its two fields, but for its flag byte (R118). -/
theorem encRecord_of_fields {p : Record} (hvalid : validRecord p = true) (isCompressed : Bool) :
    encRecord (recordSize p) (recordMsgId p) isCompressed = p.set 9 (flagByte isCompressed) := by
  have hsof : sof (sofInput (recordSize p) (recordMsgId p)) = p[0] := ((validRecord_iff p).1 hvalid).symm
  obtain ⟨h1, h2, h3, h4⟩ := recordSize_slices p
  obtain ⟨h5, h6, h7, h8⟩ := recordMsgId_slices p
  apply Vector.ext
  intro k hk
  simp only [encRecord, hsof, h1, h2, h3, h4, h5, h6, h7, h8, Vector.getElem_set]
  interval_cases k <;> rfl

/-- A flag byte 0 or 1 is told by the boolean `DEC` makes of it. -/
theorem flagByte_flagBool {flag : Byte} (h : flag = 0#8 ∨ flag = 1#8) : flagByte (flagBool flag) = flag := by
  rcases h with rfl | rfl <;> rfl

theorem flagByte_eq_zero_or_one (isCompressed : Bool) : flagByte isCompressed = 0#8 ∨ flagByte isCompressed = 1#8 := by
  cases isCompressed
  · exact .inl rfl
  · exact .inr rfl

theorem flagByte_eq_ite (isCompressed : Bool) : flagByte isCompressed = if isCompressed then 1#8 else 0#8 := rfl

/-- `ENC` of other fields gives another record (R104). -/
theorem encRecord_inj {size msgId size' msgId' : Word} {c c' : Bool} :
    encRecord size msgId c = encRecord size' msgId' c' ↔ size = size' ∧ msgId = msgId' ∧ c = c' := by
  refine ⟨fun h => ?_, fun ⟨hsize, hid, hflag⟩ => by rw [hsize, hid, hflag]⟩
  have hsize := congrArg recordSize h
  have hid := congrArg recordMsgId h
  have hflag := congrArg (fun p : Record => flagBool p[9]) h
  simp only [recordSize_encRecord, recordMsgId_encRecord, encRecord_flag, flagBool_flagByte] at hsize hid hflag
  exact ⟨hsize, hid, hflag⟩

/-! ### Canonical records -/

theorem canonicalRecord_iff (p : Record) :
    canonicalRecord p = true ↔ validRecord p = true ∧ (p[9] = 0#8 ∨ p[9] = 1#8) ∧ recordSize p ≠ 0#32 := by
  simp [canonicalRecord, and_assoc]

/-- The record `ENC` builds of a size other than 0 is canonical (R104). -/
theorem canonicalRecord_encRecord {size : Word} (hsize : size ≠ 0#32) (msgId : Word) (isCompressed : Bool) :
    canonicalRecord (encRecord size msgId isCompressed) = true := by
  rw [canonicalRecord_iff, recordSize_encRecord, encRecord_flag]
  exact ⟨validRecord_encRecord _ _ _, flagByte_eq_zero_or_one isCompressed, hsize⟩

/-- A canonical record is the one `ENC` builds of its own fields (R74). -/
theorem encRecord_of_canonical {p : Record} (hcanonical : canonicalRecord p = true) :
    encRecord (recordSize p) (recordMsgId p) (flagBool p[9]) = p := by
  obtain ⟨hvalid, hflag, -⟩ := (canonicalRecord_iff p).1 hcanonical
  rw [encRecord_of_fields hvalid, flagByte_flagBool hflag, Vector.set_getElem_self]

theorem canonicalRecord_of_encOk {msgId : Word} {bodyLen : Nat} {isCompressed : Bool} {pre : Record}
    (h : encAnswer msgId bodyLen isCompressed = .encOk pre) : canonicalRecord pre = true := by
  obtain ⟨hlen, rfl⟩ := encAnswer_eq_encOk_iff.1 h
  exact canonicalRecord_encRecord (ofNat_succ_ne_zero hlen) msgId isCompressed

/-! ### `DEC` of what `ENC` gave -/

theorem decAnswer_encRecord {bufLen : Nat} (hlen : 10 ≤ bufLen) (size msgId : Word) (isCompressed : Bool) :
    decAnswer bufLen (encRecord size msgId isCompressed) = .decOk size msgId isCompressed := by
  rw [decAnswer_of_valid hlen (validRecord_encRecord _ _ _), recordSize_encRecord, recordMsgId_encRecord,
    encRecord_flag, flagBool_flagByte]

/-- The ports see of a record with bytes after it the record (R26). -/
theorem lanesOf_record_append (p : Record) (t : List Byte) (other : Record) : lanesOf (p.toList ++ t) other = p := by
  apply Vector.ext
  intro k hk
  rw [lanesOf_get _ _ hk (by simp; omega), List.getElem_append_left (by simpa using hk), Vector.getElem_toList]

/-- Settles O16. There: `decAnswer_encRecord`, at the ports by `lanesOf_record_append` and over the sequence by
`decodeBuffer_append`. Back: `ENC` of the fields of a valid record is that record with a new flag byte
(`encRecord_of_fields`). -/
theorem preambleRoundTrip : Obligations.PreambleRoundTrip := by
  constructor
  · intro msgId bodyLen isCompressed s hlen
    refine ⟨_, exec_enc_eq_iff.2 (encAnswer_of_le hlen msgId isCompressed), fun t other s' => ⟨?_, ?_⟩⟩
    · rw [exec_dec_eq_iff, lanesOf_record_append]
      exact decAnswer_encRecord (Nat.le_add_right 10 _) _ _ _
    · rw [decodeBuffer_append, decAnswer_encRecord le_rfl]
  · intro bufLen buf size msgId isCompressed s hexec hsize
    obtain ⟨-, hvalid, rfl, rfl, -⟩ := decAnswer_eq_decOk_iff.1 (exec_dec_eq_iff.1 hexec)
    refine ⟨_, exec_enc_eq_iff.2 (encAnswer_of_size hsize _ isCompressed), fun k hk => ?_, ?_⟩
    · simp only [encRecord_of_fields hvalid]
      exact Vector.getElem_set_ne _ _ (by omega)
    · rw [encRecord_flag]
      exact flagByte_eq_zero_or_one isCompressed

/-- Settles O8: the record is `encRecord` of the operands, canonical, read by `MemRead` as its two fields, and
`encRecord` is injective. -/
theorem encRecordIsCanonicalAndTellsItsOperands : Obligations.EncRecordIsCanonicalAndTellsItsOperands := by
  intro msgId bodyLen isCompressed pre s hexec
  have henc := exec_enc_eq_iff.1 hexec
  have hcanonical := canonicalRecord_of_encOk henc
  obtain ⟨hlen, rfl⟩ := encAnswer_eq_encOk_iff.1 henc
  refine ⟨validRecord_encRecord _ _ _, hcanonical, ?_, ?_, encRecord_flag _ _ _, ?_⟩
  · rw [memRead_recordSize, recordSize_encRecord, toNat_ofNat_succ hlen]
  · rw [memRead_recordMsgId, recordMsgId_encRecord]
  · intro msgId' bodyLen' isCompressed' s' hexec'
    obtain ⟨hlen', hsame⟩ := encAnswer_eq_encOk_iff.1 (exec_enc_eq_iff.1 hexec')
    obtain ⟨hsize, hid, hflag⟩ := encRecord_inj.1 hsame
    have hnat := congrArg BitVec.toNat hsize
    rw [toNat_ofNat_succ hlen, toNat_ofNat_succ hlen'] at hnat
    exact ⟨hid, Nat.succ.inj hnat, hflag⟩

/-- Settles O9: the two records differ by a new flag byte (`encRecord_set_flag`). -/
theorem encFlagChangesByteNineOnly : Obligations.EncFlagChangesByteNineOnly := by
  intro msgId bodyLen s hlen
  refine ⟨_, _, exec_enc_eq_iff.2 (encAnswer_of_le hlen msgId false),
    exec_enc_eq_iff.2 (encAnswer_of_le hlen msgId true), encRecord_flag _ _ _, encRecord_flag _ _ _, ?_⟩
  intro k hk
  simp only [← encRecord_set_flag _ msgId false true]
  exact (Vector.getElem_set_ne _ _ (by omega)).symm

/-- Settles O25: a record that `ENC` gives is canonical, so its size is not 0; and a canonical record comes from the
request with its own fields. -/
theorem canonicalExactlyWhenEncProducesIt : Obligations.CanonicalExactlyWhenEncProducesIt := by
  refine ⟨fun p => ⟨fun hcanonical => ?_, ?_⟩, ?_, ?_⟩
  · obtain ⟨-, -, hzero⟩ := (canonicalRecord_iff p).1 hcanonical
    have hsize : 1 ≤ (recordSize p).toNat :=
      Nat.one_le_iff_ne_zero.2 fun hnat => hzero (BitVec.eq_of_toNat_eq hnat)
    refine ⟨recordMsgId p, (recordSize p).toNat - 1, flagBool p[9], fun s => ?_⟩
    rw [exec_enc_eq_iff, encAnswer_of_size hsize, encRecord_of_canonical hcanonical]
  · rintro ⟨msgId, bodyLen, isCompressed, hexec⟩
    exact canonicalRecord_of_encOk (exec_enc_eq_iff.1 (hexec State.reset))
  · intro bufLen p s hlen hvalid
    exact ⟨_, _, _, exec_dec_eq_iff.2 (decAnswer_of_valid hlen hvalid)⟩
  · intro p msgId bodyLen isCompressed s hsize hexec
    obtain ⟨-, -, hzero⟩ := (canonicalRecord_iff p).1 (canonicalRecord_of_encOk (exec_enc_eq_iff.1 hexec))
    exact hzero hsize

end Sys2Proof.Machine
end

section
/-! PROOFS. Steps and runs: a step is idle or takes one request and gives its answer, which is all the invariants over
steps need; a run gives each request the answer it gets alone; and what a reset leaves. -/

namespace Sys2Proof.Machine

/-! ### One step -/

/-- All that a step can do: it is idle, or it takes the first request and gives its answer. -/
theorem step_cases {s t : State} (h : step s = .next t) :
    (s.requests = [] ∧ t = s) ∨ ∃ p rest, s.requests = p :: rest ∧
      t = { requests := rest, responses := s.responses ++ [answer (decode p)] } := by
  cases hq : s.requests with
  | nil => exact .inl ⟨rfl, (Host.Outcome.next.inj ((step_idle hq).symm.trans h)).symm⟩
  | cons p rest => exact .inr ⟨p, rest, rfl, (Host.Outcome.next.inj ((step_eq hq).symm.trans h)).symm⟩

/-- A request presented where none waits is answered by the next step (R24). -/
theorem step_present {s : State} (h : s.requests = []) (p : RequestPorts) :
    step (s.present p) = .next (s.respond (answer (decode p))) := by
  have hq : (s.present p).requests = [p] := by rw [present_requests, h, List.nil_append]
  rw [step_eq hq]
  exact congrArg Host.Outcome.next (state_eq h.symm rfl)

/-! ### Records given -/

/-- Every answer that gives a record gives a canonical one (R104). -/
theorem answer_good (i : Instr) : (answer i).good = true := by
  cases i with
  | enc msgId bodyLen isCompressed =>
    rcases encAnswer_cases msgId bodyLen isCompressed with h | ⟨pre, h⟩
    · rw [answer_enc, h]
      rfl
    · rw [answer_enc, h]
      exact canonicalRecord_of_encOk h
  | dec bufLen lanes =>
    rcases decAnswer_cases bufLen lanes with ⟨kind, h⟩ | ⟨size, msgId, isCompressed, h⟩
    · rw [answer_dec, h]
      rfl
    · rw [answer_dec, h]
      rfl

/-- Settles O41: the only response a step can add is an answer, which is good (`answer_good`). -/
theorem givenRecordsStayCanonical : Obligations.GivenRecordsStayCanonical := by
  intro s t hgood hstep
  rcases step_cases hstep with ⟨-, rfl⟩ | ⟨p, rest, -, rfl⟩
  · exact hgood
  · intro r hr
    rcases List.mem_append.1 hr with hold | hnew
    · exact hgood r hold
    · rw [List.mem_singleton.1 hnew]
      exact answer_good (decode p)

/-- Settles O42: no response has been given. -/
theorem givenRecordsAreCanonicalAtReset : Obligations.GivenRecordsAreCanonicalAtReset := by
  intro r hr
  rw [reset_responses] at hr
  exact absurd hr List.not_mem_nil

/-! ### Runs, and the balance of a step -/

/-- Settles O40: the function is the answer of the decoded request, and the runs are `run_eq`. -/
theorem runAnswersEachRequestAsIfAlone : Obligations.RunAnswersEachRequestAsIfAlone :=
  ⟨fun p => answer (decode p), fun _ => step_eq rfl, run_eq⟩

/-- Settles O39: `step_eq` for a waiting request; and for any step its two cases, each with its own balance. -/
theorem eachRequestIsAnsweredOnce : Obligations.EachRequestIsAnsweredOnce := by
  constructor
  · intro s p rest h
    exact ⟨_, answer (decode p), step_eq h, rfl, rfl⟩
  · intro s t hstep
    rcases step_cases hstep with ⟨-, rfl⟩ | ⟨p, rest, hq, rfl⟩
    · exact ⟨rfl, Nat.le_succ _, List.prefix_rfl, List.suffix_rfl⟩
    · rw [hq]
      refine ⟨?_, ?_, List.prefix_append _ _, List.suffix_cons p rest⟩
      · simp only [List.length_append, List.length_cons, List.length_nil]
        omega
      · rw [List.length_append, List.length_singleton]

/-- Settles O45: a state has no request and the step is idle, or it has one and the step answers it. -/
theorem everyStepGoesOn : Obligations.EveryStepGoesOn := by
  intro s
  cases hq : s.requests with
  | nil => exact ⟨s, step_idle hq⟩
  | cons p rest => exact ⟨_, step_eq hq⟩

/-- Settles O31: the idle step. -/
theorem nothingHappensWithoutARequest : Obligations.NothingHappensWithoutARequest :=
  fun _ => step_idle

/-! ### The codec of requests -/

theorem bitToBool_boolToBit (b : Bool) : bitToBool (boolToBit b) = b := by
  cases b <;> rfl

theorem boolToBit_bitToBool (b : BitVec 1) : boolToBit (bitToBool b) = b := by
  rcases opSelect_cases b with rfl | rfl <;> rfl

/-- Decoding an encoded instruction gives it back, whatever the ports of the other format hold (R65, R66). -/
theorem decode_encode (other : RequestPorts) (i : Instr) : decode (encode other i) = i := by
  cases i with
  | enc msgId bodyLen isCompressed =>
    rw [decode_of_select_enc rfl]
    exact congrArg (Instr.enc msgId bodyLen) (bitToBool_boolToBit isCompressed)
  | dec bufLen lanes => exact decode_of_select_dec rfl

/-- Encoding what was decoded over its own ports changes no port (R65, R66). -/
theorem encode_decode (p : RequestPorts) : encode p (decode p) = p := by
  rcases opSelect_cases p.reqOp with hop | hop
  · rw [decode_of_select_enc hop, encode, boolToBit_bitToBool, ← hop]
  · rw [decode_of_select_dec hop, encode, ← hop]

/-- Ports that keep to their widths decode to an instruction that does (R25, R26). -/
theorem wellFormed_decode {c : Params} {p : RequestPorts} (hfits : p.fits c = true) :
    (decode p).wellFormed c = true := by
  obtain ⟨hbody, hbuf⟩ := (Bool.and_eq_true _ _).mp hfits
  rcases opSelect_cases p.reqOp with hop | hop
  · rw [decode_of_select_enc hop]
    exact hbody
  · rw [decode_of_select_dec hop]
    exact hbuf

/-- Settles O29: `decode_encode`, `encode_decode` and `wellFormed_decode`. -/
theorem requestDecodeAndEncodeAgree : Obligations.RequestDecodeAndEncodeAgree :=
  ⟨decode_encode, encode_decode, fun _ _ => wellFormed_decode⟩

/-- Settles O30: `step_of_request`, and an encoded instruction decodes to itself. -/
theorem stepRunsTheDecodedRequest : Obligations.StepRunsTheDecodedRequest := by
  refine ⟨fun _ _ _ h => step_of_request h, fun c i other rest given _ => ?_⟩
  rw [step_of_request rfl, decode_encode]

/-- Settles O44: bit 0 of each word is its select. -/
theorem tableWordsDecodeToTheirRows : Obligations.TableWordsDecodeToTheirRows := by
  constructor <;> decide

/-! ### Reset -/

/-- After the cut of the only request the queue is empty (R160). -/
theorem resetArrives_requests_of_singleton {s : State} {p : RequestPorts} (h : s.requests = [p]) :
    s.resetArrives.requests = [] := by
  rw [resetArrives_requests, h]
  rfl

/-- A cut request presented again stands where it stood (R160). -/
theorem resetArrives_present {s : State} {p : RequestPorts} (h : s.requests = [p]) :
    s.resetArrives.present p = s := by
  apply state_eq
  · rw [present_requests, resetArrives_requests_of_singleton h, h, List.nil_append]
  · rw [present_responses, resetArrives_responses]

/-- Settles O43: `step_present` after reset and in any other state without a request; a cut of the only request leaves
an idle state, from which presenting it again restores the state before the cut. -/
theorem resetLeavesNothingAndCutsOneTransaction : Obligations.ResetLeavesNothingAndCutsOneTransaction := by
  refine ⟨reset_requests, reset_responses, ?_, ?_, ?_⟩
  · intro p s h
    exact ⟨answer (decode p), step_present reset_requests p, step_present h p⟩
  · intro s p rest h
    rw [resetArrives_requests, resetArrives_responses, h]
    exact ⟨rfl, rfl⟩
  · intro s p h
    rw [resetArrives_present h]
    exact ⟨step_idle (resetArrives_requests_of_singleton h), rfl⟩

end Sys2Proof.Machine
end

section
/-! PROOFS. The checksum byte: the equal forms and laws of `SOF`, which changes of a valid record `DEC` detects, and how
many records are valid. -/

namespace Sys2Proof.Machine

/-! ### `SOF` of a byte -/

/-- Of a byte widened to the input of `SOF` the low byte is the byte itself. -/
theorem truncate_zeroExtend (b : Byte) : ((b.zeroExtend 32).truncate 8 : Byte) = b := by
  rw [BitVec.truncate_eq_setWidth, BitVec.zeroExtend_eq_setWidth, BitVec.setWidth_setWidth_of_le _ (by decide),
    BitVec.setWidth_eq]

theorem sof_zeroExtend (b : Byte) : sof (b.zeroExtend 32) = 61#8 ^^^ b := by
  rw [sof_eq_xor, truncate_zeroExtend]

/-- XOR with the same byte twice changes nothing. -/
theorem xor_xor_cancel_left (a b : Byte) : a ^^^ (a ^^^ b) = b := by
  rw [← BitVec.xor_assoc, BitVec.xor_self, BitVec.zero_xor]

/-- `SOF` of `SOF` is the low byte (R95). -/
theorem sof_sof (v : Word) : sof ((sof v).zeroExtend 32) = v.truncate 8 := by
  rw [sof_zeroExtend, sof_eq_xor, xor_xor_cancel_left]

/-- The difference of two checksums is the difference of the low bytes (R95). -/
theorem sof_xor_sof (v w : Word) : sof v ^^^ sof w = (v ^^^ w).truncate 8 := by
  rw [BitVec.truncate_eq_setWidth, BitVec.setWidth_xor, sof_eq_xor, sof_eq_xor, BitVec.xor_comm (61#8),
    BitVec.xor_assoc, xor_xor_cancel_left]

/-- Below 256, XOR with 255 is the difference from 255 (R91). -/
theorem xor_255_eq_sub (b : Byte) : b.toNat ^^^ 255 = 255 - b.toNat := by
  have h : (b ^^^ BitVec.allOnes 8).toNat = (~~~b).toNat := congrArg BitVec.toNat BitVec.xor_allOnes
  rwa [BitVec.toNat_xor, BitVec.toNat_not] at h

/-- A bit of the low byte is inverted where 61 has a bit, and passes where it has none (R91). -/
theorem getLsbD_sof (v : Word) {i : Nat} (hi : i < 8) :
    (sof v).getLsbD i = ((61#8).getLsbD i ^^ v.getLsbD i) := by
  rw [sof_eq_xor, BitVec.getLsbD_xor, BitVec.truncate_eq_setWidth, BitVec.getLsbD_setWidth]
  simp [hi]

/-- Settles O2: the first form is the definition, and the others are it with NOT for XOR 255, with the difference from
255, with the one constant 61 (`sof_eq_xor`), and bit by bit (`getLsbD_sof`). -/
theorem sofHasFiveEqualForms : Obligations.SofHasFiveEqualForms := by
  intro v
  refine ⟨rfl, ?_, ?_, sof_eq_xor v, ?_, ?_⟩
  · rw [← BitVec.xor_allOnes]
    rfl
  · have hlow : (v.truncate 8 : Byte).toNat = v.toNat % 256 := BitVec.toNat_setWidth 8 v
    rw [sofIsMagicXorComplementOfLowByte v, ← hlow, xor_255_eq_sub]
  · intro i hi
    simp only [List.mem_cons, List.not_mem_nil, or_false] at hi
    rcases hi with rfl | rfl | rfl | rfl | rfl <;> exact (getLsbD_sof v (by decide)).trans (Bool.true_xor _)
  · intro i hi
    simp only [List.mem_cons, List.not_mem_nil, or_false] at hi
    rcases hi with rfl | rfl | rfl <;> exact (getLsbD_sof v (by decide)).trans (Bool.false_xor _)

/-- Settles O4: `SOF` on bytes is an involution by `sof_sof`, so a bijection. -/
theorem sofIsABijectiveInvolutionOnBytes : Obligations.SofIsABijectiveInvolutionOnBytes := by
  refine ⟨Function.Involutive.bijective fun b => ?_, sof_sof, sof_xor_sof⟩
  exact (sof_sof (b.zeroExtend 32)).trans (truncate_zeroExtend b)

/-- Settles O5: `sof_add` for any two fields, `sof_recordSum` for those of a record. -/
theorem recordChecksumNeedsTwoBytes : Obligations.RecordChecksumNeedsTwoBytes := by
  refine ⟨sof_add, sof_recordSum, fun p q h4 h8 => ?_⟩
  rw [sof_recordSum, sof_recordSum, h4, h8]

/-! ### The checksum byte of a record -/

/-- The one checksum byte that makes a record with the other nine bytes valid (R71). -/
def checksumByte (p : Record) : Byte := 61#8 ^^^ (p[4] + p[8])

theorem validRecord_iff_checksumByte (p : Record) : validRecord p = true ↔ p[0] = checksumByte p :=
  validRecord_iff_bytes p

/-- R119 (d): the checksum condition with 61 on the side of byte 0. -/
theorem validRecord_iff_xor (p : Record) : validRecord p = true ↔ p[0] ^^^ 61#8 = p[4] + p[8] := by
  rw [validRecord_iff_bytes, ← BitVec.xor_right_inj (61#8), xor_xor_cancel_left, BitVec.xor_comm]

/-- The checksum byte does not depend on byte 0. -/
@[simp] theorem checksumByte_set_zero (p : Record) (b : Byte) : checksumByte (p.set 0 b) = checksumByte p := by
  simp [checksumByte]

theorem validRecord_set_zero_iff (p : Record) (b : Byte) :
    validRecord (p.set 0 b) = true ↔ b = checksumByte p := by
  rw [validRecord_iff_checksumByte, checksumByte_set_zero, Vector.getElem_set_self]

/-- Of the values of byte 4 only its own keeps a valid record valid (R119). -/
theorem validRecord_set_four_iff {p : Record} (hvalid : validRecord p = true) (b : Byte) :
    validRecord (p.set 4 b) = true ↔ b = p[4] := by
  rw [validRecord_iff_xor] at hvalid ⊢
  simp [hvalid, eq_comm]

/-- Of the values of byte 8 only its own keeps a valid record valid (R119). -/
theorem validRecord_set_eight_iff {p : Record} (hvalid : validRecord p = true) (b : Byte) :
    validRecord (p.set 8 b) = true ↔ b = p[8] := by
  rw [validRecord_iff_xor] at hvalid ⊢
  simp [hvalid, eq_comm]

/-! ### Changes that `DEC` detects, and changes that it does not -/

theorem exec_dec_frameError_iff {bufLen : Nat} (hlen : 10 ≤ bufLen) {p : Record} {s : State} :
    exec (.dec bufLen p) s = .next (s.respond (.err .frameError)) ↔ ¬ validRecord p = true := by
  rw [exec_dec_eq_iff, decAnswer_eq_frameError_iff hlen]

/-- Settles O17: `FrameError` is an invalid record, and for each of the three bytes only its own value keeps a valid
record valid. -/
theorem decDetectsChangesOfTheChecksumBytes : Obligations.DecDetectsChangesOfTheChecksumBytes := by
  intro bufLen p b s hlen hvalid
  refine ⟨fun hb => ?_, fun hb => ?_, fun hb => ?_, fun q => ?_⟩
  · rw [exec_dec_frameError_iff hlen, validRecord_set_zero_iff, ← (validRecord_iff_checksumByte p).1 hvalid]
    exact hb
  · rw [exec_dec_frameError_iff hlen, validRecord_set_four_iff hvalid]
    exact hb
  · rw [exec_dec_frameError_iff hlen, validRecord_set_eight_iff hvalid]
    exact hb
  · rw [exec_dec_frameError_iff hlen, validRecord_iff_xor]

/-- Exchanging the two fields keeps a record valid: the sum of the bytes 4 and 8 commutes (R120). -/
theorem validRecord_exchange_fields {p : Record} (hvalid : validRecord p = true) :
    validRecord #v[p[0], p[5], p[6], p[7], p[8], p[1], p[2], p[3], p[4], p[9]] = true := by
  rw [validRecord_iff_xor] at hvalid ⊢
  exact hvalid.trans (BitVec.add_comm _ _)

/-- New bytes 4 and 8 with the same sum keep a record valid (R120). -/
theorem validRecord_set_of_sum_eq {p : Record} (hvalid : validRecord p = true) {b c : Byte}
    (hsum : p[4] + p[8] = b + c) : validRecord ((p.set 4 b).set 8 c) = true := by
  rw [validRecord_iff_xor] at hvalid ⊢
  simpa [hvalid] using hsum

/-- Settles O18: each changed record is valid, because it agrees in the three bytes or keeps the sum of two of them; and
a valid record decodes to its own fields
(`decReturnsTheFieldsOfEveryValidRecord`). -/
theorem decMissesChangesThatKeepTheSum : Obligations.DecMissesChangesThatKeepTheSum := by
  intro bufLen p s hlen hvalid
  refine ⟨?_, ?_, ?_, ?_, ?_⟩
  · intro q h0 h4 h8
    exact decReturnsTheFieldsOfEveryValidRecord _ _ s hlen ((validRecord_congr h0 h4 h8).trans hvalid)
  · intro q hq
    exact decReturnsTheFieldsOfEveryValidRecord _ _ s hlen ((validRecord_iff_xor q).2 hq)
  · exact validRecord_set_of_sum_eq hvalid (by ring)
  · exact validRecord_set_of_sum_eq hvalid (BitVec.add_comm _ _)
  · exact decReturnsTheFieldsOfEveryValidRecord _ _ s hlen (validRecord_exchange_fields hvalid)

/-- Settles O15: a record with the given fields is the one of `InvalidRecordGivesFrameErrorAndNothingElse`, and every
such record decodes to its fields, the rule's example among them. -/
theorem decMakesNoOtherCheck : Obligations.DecMakesNoOtherCheck := by
  obtain ⟨-, hexists⟩ := invalidRecordGivesFrameErrorAndNothingElse
  constructor
  · intro bufLen size msgId flag s hlen
    refine ⟨hexists size msgId flag, ?_⟩
    rintro buf hvalid rfl rfl rfl
    exact decReturnsTheFieldsOfEveryValidRecord _ _ s hlen hvalid
  · intro s
    exact decReturnsTheFieldsOfEveryValidRecord _ _ s le_rfl (by decide)

/-! ### How many records there are, and how many are valid -/

/-- A record is its ten bytes as a function of the offset (R60). -/
def recordEquivBytes : Record ≃ (Fin 10 → Byte) where
  toFun p k := p[k]
  invFun f := Vector.ofFn f
  left_inv p := by
    apply Vector.ext
    intro k hk
    exact Vector.getElem_ofFn hk
  right_inv f := by
    funext k
    exact Vector.getElem_ofFn k.isLt

/-- A record is a valid record and a byte: what byte 0 was before the checksum took its place (R71). -/
def validEquiv : {p : Record // validRecord p = true} × Byte ≃ Record where
  toFun x := x.1.val.set 0 x.2
  invFun q := (⟨q.set 0 (checksumByte q), (validRecord_set_zero_iff q _).2 rfl⟩, q[0])
  left_inv := by
    rintro ⟨⟨p, hvalid⟩, b⟩
    have hp : p.set 0 (checksumByte p) = p := by
      rw [← (validRecord_iff_checksumByte p).1 hvalid, Vector.set_getElem_self]
    simp [hp]
  right_inv q := by simp

theorem card_byte : Nat.card Byte = 2 ^ 8 := by
  rw [Nat.card_congr BitVec.equivFin.toEquiv, Nat.card_fin]

theorem card_record : Nat.card Record = 2 ^ 80 := by
  rw [Nat.card_congr recordEquivBytes, Nat.card_fun, card_byte, Nat.card_fin, ← Nat.pow_mul]

theorem card_validRecord : Nat.card {p : Record // validRecord p = true} = 2 ^ 72 := by
  have hprod := (Nat.card_prod _ _).symm.trans (Nat.card_congr validEquiv)
  rw [card_byte, card_record] at hprod
  exact Nat.eq_of_mul_eq_mul_right (by decide) (hprod.trans (Nat.pow_add 2 72 8))

/-- Settles O22: byte 0 has one valid value, so a record is a valid record and a free byte (`validEquiv`). -/
theorem oneRecordInTwoHundredFiftySixIsValid : Obligations.OneRecordInTwoHundredFiftySixIsValid := by
  refine ⟨fun p => ⟨checksumByte p, ?_, fun b hb => ?_⟩, card_record, card_validRecord⟩
  · exact (validRecord_set_zero_iff p _).2 rfl
  · exact (validRecord_set_zero_iff p b).1 hb

end Sys2Proof.Machine
end

section
/-! PROOFS. `DEC` at the ports: which lanes are bytes of the operand buffer, and `DEC` of a byte sequence through its
projection onto the ports. -/

namespace Sys2Proof.Machine

/-- Settles O26: `read_operandBuffer`, and there are ten lanes. -/
theorem laneIsAnOperandOnlyBelowTheLength : Obligations.LaneIsAnOperandOnlyBelowTheLength := by
  intro bufLen buf k
  rw [read_operandBuffer]
  by_cases hk : k < 10
  · rw [dif_pos hk, Vector.getElem?_eq_getElem hk]
  · rw [dif_neg hk, Vector.getElem?_eq_none (Nat.le_of_not_lt hk), ite_self]

/-- `DEC` over a byte sequence answers what `DEC` answers at the ports, whatever the other lanes hold (R26). -/
theorem decodeBuffer_eq (buf : List Byte) (other : Record) :
    decodeBuffer buf = .ok (decAnswer buf.length (lanesOf buf other)) := by
  by_cases hshort : buf.length < 10
  · rw [decAnswer_of_lt hshort]
    exact decodePreamble_of_lt hshort _
  · have hlong : ¬ buf.length < preambleLen := hshort
    rw [decAnswer, if_neg hlong]
    refine decodePreamble_of_record hlong fun k hk => ?_
    have hbuf : k < buf.length := Nat.lt_of_lt_of_le hk (Nat.le_of_not_lt hshort)
    rw [read_ofBytes, if_pos (Nat.zero_le k), Nat.sub_zero, List.getElem?_eq_getElem hbuf, lanesOf_get _ _ hk hbuf]

/-- Settles O27: one answer for both (`decodeBuffer_eq`). -/
theorem decAtThePortsIsDecOfTheBuffer : Obligations.DecAtThePortsIsDecOfTheBuffer := by
  intro buf other s
  exact ⟨_, decodeBuffer_eq buf other, exec_dec_eq_iff.2 rfl⟩

/-- Settles O38: the answer of `DEC` has no state in it. -/
theorem sameRequestAgainGivesTheSameOutcome : Obligations.SameRequestAgainGivesTheSameOutcome := by
  intro bufLen buf s
  exact ⟨decAnswer bufLen buf, _, exec_eq _ s, rfl, exec_eq _ _⟩

end Sys2Proof.Machine
end
